-- ==== Sys2Proof/Word.lean ====
section
/-! DEFINITION. The word widths of 00_scope.md R6: u8, u32, u64. Every value is unsigned. -/

namespace Sys2Proof

/-- `u8` (R6). -/
abbrev Byte := BitVec 8

/-- `u32` (R6): a register of the window, a command word, a field element (R13). -/
abbrev Word := BitVec 32

/-- `u64` (R6): the operand N, the session size SIZE, a carry-less product. -/
abbrev DWord := BitVec 64

end Sys2Proof
end

