-- ==== Sys2Proof/Syntax.lean ====
section
/-! DEFINITION. The commands of 30_encoding.md R75, the raw fields of a command word (R71), the register names of
10_state.md R21, the host's accesses (20_memory.md R50, 30_encoding.md R79, R80) and the turns of an interleaving
(10_state.md R20). -/

namespace Sys2Proof

/-- The commands, one constructor per row of the opcode map (R75). Only REM_BYTE and SCRC_ENTRY carry an operand, the
unsigned byte IMM8 (R72); every other operand is an implicit register (R74). -/
inductive Instr where
  | clrErr
  | remLoad
  | remByte (imm : Byte)
  | remWord
  | clMul
  | modMul
  | modExp
  | scrcBegin
  | scrcEntry (imm : Byte)
  | scrcFinish
  | sremFinish
  deriving DecidableEq, Repr

/-- The three fields of a command word as they stand in it, legal or not (R71). -/
structure CmdFields where
  opc  : Byte
  rsvd : BitVec 16
  imm8 : Byte
  deriving DecidableEq, Repr

/-- The registers of the window, by the names of R21; the three reserved offsets are named by their offset. -/
inductive Reg where
  | CMD | STATUS | A | B | N_LO | N_HI | R_LO | R_HI
  | REM_ACC | SIZE_LO | SIZE_HI | ECOUNT | ECAP | RSVD34 | RSVD38 | RSVD3C
  deriving DecidableEq, Repr

/-- The width of a host access (20_memory.md R51). -/
inductive AccessWidth where
  | w8 | w16 | w32 | w64
  deriving DecidableEq, Repr

/-- One item of what the host does. `read` and `write` are one bus access at a host address; `wait` is the polling loop
of 30_encoding.md R80. The value of an access that is not 32 bits wide never matters: such an access is not admitted. -/
inductive HostOp where
  | read  (width : AccessWidth) (addr : Nat)
  | write (width : AccessWidth) (addr : Nat) (value : Word)
  | wait
  deriving DecidableEq, Repr

/-- Who moves next (R20): the host issues its next access, the engine completes, or the reset input changes its level
(70_reset_and_hazards.md R230). -/
inductive Turn where
  | host
  | engine
  | resetPin (asserted : Bool)
  deriving DecidableEq, Repr

end Sys2Proof
end

