-- ==== Sys2Proof/WellFormed.lean ====
section
/-! DEFINITION. What the spec admits: legal command fields (30_encoding.md R71 to R77) and admitted host accesses
(20_memory.md R50 to R52). A term of `Instr` needs no check: its only operand is an unsigned byte, and every byte is
legal (R72). -/

namespace Sys2Proof

/-- The operation codes of R75 whose command takes IMM8. -/
def immOpcodes : List Byte := [0x11, 0x31]

/-- The operation codes of R75 whose command is one fixed word. -/
def fixedOpcodes : List Byte := [0x01, 0x10, 0x12, 0x20, 0x21, 0x22, 0x30, 0x32, 0x33]

/-- R73: RSVD must be 0 in every command. -/
def CmdFields.rsvdClear (f : CmdFields) : Bool := f.rsvd == 0

/-- R75, R77: the operation code is one of the map's. -/
def CmdFields.opcListed (f : CmdFields) : Bool := immOpcodes.contains f.opc || fixedOpcodes.contains f.opc

/-- R72: IMM8 is 0 in every command but REM_BYTE and SCRC_ENTRY. -/
def CmdFields.immAllowed (f : CmdFields) : Bool := immOpcodes.contains f.opc || f.imm8 == 0

/-- The fields of a legal command word (R76, R77). -/
def CmdFields.wf (f : CmdFields) : Bool := f.rsvdClear && f.opcListed && f.immAllowed

/-- R51: the port carries only 32-bit accesses. -/
def AccessWidth.wf (w : AccessWidth) : Bool := w == .w32

/-- R50: the address reaches an offset of the window at `base`. -/
def inWindow (base addr : Nat) : Bool := base ≤ addr && addr < base + 0x40

/-- R52: the offset is a multiple of 4. -/
def wordAligned (base addr : Nat) : Bool := (addr - base) % 4 == 0

/-- A host access that the window at `base` admits; a `wait` reads STATUS, which it always admits. -/
def HostOp.wf (base : Nat) : HostOp → Bool
  | .read w addr    => w.wf && inWindow base addr && wordAligned base addr
  | .write w addr _ => w.wf && inWindow base addr && wordAligned base addr
  | .wait           => true

end Sys2Proof
end

