-- ==== Sys2Proof/Decode.lean ====
section
/-! DEFINITION. The decoder of 30_encoding.md R76, total on every word, and the encoder of R75. The opcode map of R75
stands beside them as a table of masks and patterns. -/

namespace Sys2Proof

/-- Why a word is ILLEGAL (R77). The engine does not tell these apart: each is E_ILLEGAL (60_exceptions.md R201; log 17). -/
inductive IllegalWord where
  /-- RSVD ≠ 0 (R73). -/
  | reservedField
  /-- An operation code that R75 does not list. -/
  | reservedOpcode
  /-- IMM8 ≠ 0 in a command that takes none (R72). -/
  | strayImmediate
  deriving DecidableEq, Repr

/-- The fields of a word: OPC 31:24, RSVD 23:8, IMM8 7:0 (R71). -/
def fieldsOf (w : Word) : CmdFields where
  opc  := w.extractLsb' 24 8
  rsvd := w.extractLsb' 8 16
  imm8 := w.extractLsb' 0 8

/-- The command of each operation code whose word is fixed (R75). -/
def fixedCommand (opc : Byte) : Option Instr :=
  if opc = 0x01 then some .clrErr
  else if opc = 0x10 then some .remLoad
  else if opc = 0x12 then some .remWord
  else if opc = 0x20 then some .clMul
  else if opc = 0x21 then some .modMul
  else if opc = 0x22 then some .modExp
  else if opc = 0x30 then some .scrcBegin
  else if opc = 0x32 then some .scrcFinish
  else if opc = 0x33 then some .sremFinish
  else none

/-- The command that legal fields stand for (R76, in its order of tests). -/
def decodeFields (f : CmdFields) : Except IllegalWord Instr :=
  if f.rsvd ≠ 0 then .error .reservedField
  else if f.opc = 0x11 then .ok (.remByte f.imm8)
  else if f.opc = 0x31 then .ok (.scrcEntry f.imm8)
  else match fixedCommand f.opc with
    | none   => .error .reservedOpcode
    | some i => if f.imm8 ≠ 0 then .error .strayImmediate else .ok i

/-- `decode` of R76: a command, or ILLEGAL with its reason. -/
def decode (w : Word) : Except IllegalWord Instr := decodeFields (fieldsOf w)

/-- The OPC of a command (R75). -/
def Instr.opc : Instr → Byte
  | .clrErr      => 0x01
  | .remLoad     => 0x10
  | .remByte _   => 0x11
  | .remWord     => 0x12
  | .clMul       => 0x20
  | .modMul      => 0x21
  | .modExp      => 0x22
  | .scrcBegin   => 0x30
  | .scrcEntry _ => 0x31
  | .scrcFinish  => 0x32
  | .sremFinish  => 0x33

/-- The IMM8 of a command: its byte operand, or 0 where it has none (R72). -/
def Instr.imm8 : Instr → Byte
  | .remByte imm   => imm
  | .scrcEntry imm => imm
  | .clrErr | .remLoad | .remWord | .clMul | .modMul | .modExp | .scrcBegin | .scrcFinish | .sremFinish => 0

/-- The fields of a command (R71): RSVD is always 0. -/
def Instr.fields (i : Instr) : CmdFields where
  opc  := i.opc
  rsvd := 0
  imm8 := i.imm8

/-- The word that three fields make: bits `OOOOOOOO RRRRRRRR RRRRRRRR IIIIIIII` (R71). -/
def packFields (f : CmdFields) : Word := (f.opc ++ f.rsvd) ++ f.imm8

/-- The word of a command. -/
def encode (i : Instr) : Word := packFields i.fields

/-- A row of the opcode map (R75): a word `w` selects it iff `w AND mask = pattern`. -/
structure OpcodeRow where
  mnemonic : String
  pattern  : Word
  mask     : Word
  deriving DecidableEq, Repr

/-- The word selects the row (R75). -/
def OpcodeRow.selects (r : OpcodeRow) (w : Word) : Bool := w &&& r.mask == r.pattern

/-- The opcode map (R75). -/
def opcodeTable : List OpcodeRow := [
  ⟨"CLRERR",      0x01000000, 0xFFFFFFFF⟩,
  ⟨"REM_LOAD",    0x10000000, 0xFFFFFFFF⟩,
  ⟨"REM_BYTE",    0x11000000, 0xFFFFFF00⟩,
  ⟨"REM_WORD",    0x12000000, 0xFFFFFFFF⟩,
  ⟨"CLMUL",       0x20000000, 0xFFFFFFFF⟩,
  ⟨"MODMUL",      0x21000000, 0xFFFFFFFF⟩,
  ⟨"MODEXP",      0x22000000, 0xFFFFFFFF⟩,
  ⟨"SCRC_BEGIN",  0x30000000, 0xFFFFFFFF⟩,
  ⟨"SCRC_ENTRY",  0x31000000, 0xFFFFFF00⟩,
  ⟨"SCRC_FINISH", 0x32000000, 0xFFFFFFFF⟩,
  ⟨"SREM_FINISH", 0x33000000, 0xFFFFFFFF⟩]

/-- The row of a command in the opcode map (R75). -/
def Instr.row : Instr → OpcodeRow
  | .clrErr      => ⟨"CLRERR",      0x01000000, 0xFFFFFFFF⟩
  | .remLoad     => ⟨"REM_LOAD",    0x10000000, 0xFFFFFFFF⟩
  | .remByte _   => ⟨"REM_BYTE",    0x11000000, 0xFFFFFF00⟩
  | .remWord     => ⟨"REM_WORD",    0x12000000, 0xFFFFFFFF⟩
  | .clMul       => ⟨"CLMUL",       0x20000000, 0xFFFFFFFF⟩
  | .modMul      => ⟨"MODMUL",      0x21000000, 0xFFFFFFFF⟩
  | .modExp      => ⟨"MODEXP",      0x22000000, 0xFFFFFFFF⟩
  | .scrcBegin   => ⟨"SCRC_BEGIN",  0x30000000, 0xFFFFFFFF⟩
  | .scrcEntry _ => ⟨"SCRC_ENTRY",  0x31000000, 0xFFFFFF00⟩
  | .scrcFinish  => ⟨"SCRC_FINISH", 0x32000000, 0xFFFFFFFF⟩
  | .sremFinish  => ⟨"SREM_FINISH", 0x33000000, 0xFFFFFFFF⟩

/-- The command word of an opcode-table row: a command is one 32-bit word, whose bits the table numbers as the port
does (R6, R70); a longer number is no command word. -/
def tableWord (nbits w : Nat) : Option Word :=
  if w % 2 ^ nbits < 2 ^ 32 then some (BitVec.ofNat 32 (w % 2 ^ nbits)) else none

/-- What the decoder reads from the word of an opcode-table row. -/
def decodeTableWord (nbits w : Nat) : Option Instr :=
  match tableWord nbits w with
  | none   => none
  | some v => (decode v).toOption

end Sys2Proof
end

