-- ==== Sys2Proof/Config.lean ====
section
/-! DEFINITION. The two OPEN parameters of 00_scope.md R5, as constants without a body: nothing can compute or
prove which admitted value they have (log 5, log 6). They reach the machine only through `State.reset`. -/

namespace Sys2Proof.Config

/-- The open choice of N_ENTRIES (92_eei_decisions.md D16), counted from 0. -/
opaque capacityChoice : Fin 4294967295

/-- The open choice of REG_BASE (92_eei_decisions.md D2), in units of 64 bytes. -/
opaque baseChoice : Nat

/-- N_ENTRIES, `1 <= N_ENTRIES <= 2^32 - 1` (R5): every value of that range is one value of the choice. -/
def nEntries : Word := BitVec.ofNat 32 (capacityChoice.val + 1)

/-- REG_BASE, 64-byte aligned (R5, 20_memory.md R59). -/
def regBase : Nat := 64 * baseChoice

end Sys2Proof.Config
end

