-- ==== Sys2Proof/Machine/State.lean ====
section
/-! DEFINITION. The state of the block (10_state.md), of the host port and of the interleaving, as plain data; the
reasons a step can stop; the state after reset (10_state.md R40). -/

namespace Sys2Proof.Machine

/-- The errors of 60_exceptions.md R201. They are records in STATUS, never stops (R200). -/
inductive ErrorCode where
  /-- The accepted word is illegal (30_encoding.md R76, R77). -/
  | illegal
  /-- A CMD write while BUSY = 1 (44_control.md R182). -/
  | busy
  /-- REM_BYTE or REM_WORD with REM_VALID = 0 (40_remainder.md R104, R105). -/
  | remShort
  /-- SCRC_ENTRY, SCRC_FINISH or SREM_FINISH with SCRC_OPEN = 0 (43_sparse_crc.md R157 to R159). -/
  | scrcClosed
  /-- SCRC_ENTRY with N >= SIZE (R157). -/
  | range
  /-- SCRC_ENTRY at a new position with a full buffer (R157). -/
  | capacity
  deriving DecidableEq, Repr

/-- Why the machine stops with a fault. -/
inductive Fault where
  /-- Raised by a meaning asked to complete a command where PEND is none: the engine step is not enabled there
  (44_control.md R183). No step raises it. Safe (log 10). -/
  | noPendingCommand
  /-- Raised by a host access whose address is outside the window, the only address space (20_memory.md R50, R59).
  Safe (log 9). -/
  | outsideWindow
  deriving DecidableEq, Repr

/-- Why the machine gives a step no meaning. -/
inductive Refusal where
  /-- Raised by an arm of `exec` whose instruction has no meaning yet. No arm raises it. Safe. -/
  | notModelled (mnemonic : String)
  /-- Raised by an 8-bit, 16-bit or 64-bit host access: the host has no step (20_memory.md R51). Safe (log 8). -/
  | accessWidth
  /-- Raised by a host access whose offset is not a multiple of 4: the host has no step (R52). Safe (log 8). -/
  | misaligned
  /-- Raised by a host access while reset is asserted: the host has no step (70_reset_and_hazards.md R230).
  Safe (log 7). -/
  | accessDuringReset
  deriving DecidableEq, Repr

/-- The record of the pending slot (10_state.md R35): the accepted word and the values of A, B and N at acceptance. -/
structure Pending where
  cmd : Word
  a   : Word
  b   : Word
  n   : DWord
  deriving DecidableEq, Repr

/-- The entry buffer EB (10_state.md R34): the positions held, each with its byte, in strictly rising order of
position, so that equal maps are equal lists (log 12). A byte 0 is an entry like any other (43_sparse_crc.md R165). -/
abbrev EntryBuffer := List Host.Cell

structure State where
  /-- Operand register A (R24). -/
  a          : Word
  /-- Operand register B (R25). -/
  b          : Word
  /-- N_LO, bits 31:0 of N (R26). -/
  nLo        : Word
  /-- N_HI, bits 63:32 of N (R26). -/
  nHi        : Word
  /-- R_LO, bits 31:0 of R (R27). -/
  rLo        : Word
  /-- R_HI, bits 63:32 of R (R27). -/
  rHi        : Word
  /-- REM_ACC (R28). -/
  remAcc     : Word
  /-- REM_VALID (R33). -/
  remValid   : Bool
  /-- SIZE, read as SIZE_LO and SIZE_HI (R29). -/
  size       : DWord
  /-- SCRC_OPEN (R33). -/
  scrcOpen   : Bool
  /-- EB (R34); ECOUNT is its number of keys (R30). -/
  eb         : EntryBuffer
  /-- PEND (R35); BUSY is whether it holds a command. -/
  pend       : Option Pending
  /-- ERR (R36). -/
  err        : Bool
  /-- ERRCODE (R36). -/
  errCode    : BitVec 4
  /-- ECAP, the constant N_ENTRIES (R31; log 5). -/
  ecap       : Word
  /-- REG_BASE, a constant of the platform (20_memory.md R59; log 6). -/
  regBase    : Nat
  /-- The reset input is asserted (70_reset_and_hazards.md R230; log 7). -/
  resetPin   : Bool
  /-- The model's own: what the host has yet to issue, in order (log 4). -/
  hostQueue  : List HostOp
  /-- The model's own: who moves next, and after that (log 1). -/
  turns      : List Turn
  /-- The model's own: the values the host's reads returned, latest first (log 4). -/
  readLog    : List Word
  deriving DecidableEq, Repr

/-- The block after reset (R40) with N_ENTRIES and REG_BASE given, reset released, and nothing for the host to do. -/
def State.resetWith (nEntries : Word) (regBase : Nat) : State where
  a         := 0
  b         := 0
  nLo       := 0
  nHi       := 0
  rLo       := 0
  rHi       := 0
  remAcc    := 0
  remValid  := false
  size      := 0
  scrcOpen  := false
  eb        := []
  pend      := none
  err       := false
  errCode   := 0
  ecap      := nEntries
  regBase   := regBase
  resetPin  := false
  hostQueue := []
  turns     := []
  readLog   := []

/-- The machine right after reset (R40), with the open parameters of 00_scope.md R5. -/
def State.reset : State := State.resetWith Config.nEntries Config.regBase

end Sys2Proof.Machine
end

