-- ==== Sys2Proof/Machine/Operands.lean ====
section
/-! DEFINITION. The operand forms: halves of 64-bit values (00_scope.md R6), words and products read as bytes, most
significant first (00_scope.md R8, 20_memory.md R57, R58), and the operands a command reads from its acceptance
snapshot (00_scope.md R15). -/

namespace Sys2Proof.Machine

/-- `v[63:32]`. -/
def hi32 (v : DWord) : Word := v.extractLsb' 32 32

/-- `v[31:0]`. -/
def lo32 (v : DWord) : Word := v.extractLsb' 0 32

/-- `{hi, lo}` (R6). -/
def pair (hi lo : Word) : DWord := hi ++ lo

/-- `be32(w)` (R8): bits 31:24 first. -/
def be32 (w : Word) : List Byte :=
  [w.extractLsb' 24 8, w.extractLsb' 16 8, w.extractLsb' 8 8, w.extractLsb' 0 8]

/-- `be64(v)` (R8). -/
def be64 (v : DWord) : List Byte := be32 (hi32 v) ++ be32 (lo32 v)

/-- Four bytes as a word, the first at bits 31:24 (20_memory.md R57). -/
def wordOfBytes (b0 b1 b2 b3 : Byte) : Word := ((b0 ++ b1) ++ b2) ++ b3

/-- `reflect8` (00_scope.md R10): bit i of the result is bit 7 - i. -/
def reflect8 (b : Byte) : Byte := b.reverse

/-- `reflect32` (00_scope.md R11): bit i of the result is bit 31 - i. -/
def reflect32 (w : Word) : Word := w.reverse

/-- The operand register pair `N = {N_HI, N_LO}` (10_state.md R26). -/
def State.n (s : State) : DWord := pair s.nHi s.nLo

/-- The result register pair `R = {R_HI, R_LO}` (10_state.md R27). -/
def State.r (s : State) : DWord := pair s.rHi s.rLo

/-- The snapshot that an acceptance of `cmd` latches: A, B and N as of this access (44_control.md R181). -/
def State.snapshot (s : State) (cmd : Word) : Pending where
  cmd := cmd
  a   := s.a
  b   := s.b
  n   := s.n

/-- The snapshot's N as an unsigned number: an exponent (42_modular.md R135). -/
abbrev Pending.exponent (p : Pending) : Nat := p.n.toNat

/-- The snapshot's N as an unsigned number: a byte position (43_sparse_crc.md R157). -/
abbrev Pending.position (p : Pending) : Nat := p.n.toNat

end Sys2Proof.Machine
end

