-- ==== Sys2Proof/Machine/Flags.lean ====
section
/-! DEFINITION. The flags: STATUS and its fields (10_state.md R23), the error codes (60_exceptions.md R201) and the
error record (60_exceptions.md R203). No command sets a flag by its arithmetic (10_state.md R38). -/

namespace Sys2Proof.Machine

/-- The value of STATUS.ERRCODE for an error (R201). -/
def ErrorCode.code : ErrorCode → BitVec 4
  | .illegal    => 1
  | .busy       => 2
  | .remShort   => 3
  | .scrcClosed => 4
  | .range      => 5
  | .capacity   => 6

/-- BUSY = 1 iff PEND ≠ none (10_state.md R35). -/
def State.busy (s : State) : Bool := s.pend.isSome

/-- ECOUNT, the number of distinct positions held (10_state.md R30). -/
def State.ecount (s : State) : Word := BitVec.ofNat 32 s.eb.length

/-- `zext_32({ERRCODE[3:0], 0b0000, SCRC_OPEN, REM_VALID, ERR, BUSY})` (10_state.md R23). -/
def State.status (s : State) : Word :=
  (s.errCode ++ (0 : BitVec 4) ++ BitVec.ofBool s.scrcOpen ++ BitVec.ofBool s.remValid ++
    BitVec.ofBool s.err ++ BitVec.ofBool s.busy).setWidth 32

/-- `record(code)` (60_exceptions.md R203): the first error since the last clear is kept. -/
def State.record (s : State) (e : ErrorCode) : State :=
  if s.err then s else { s with err := true, errCode := e.code }

/-- The record cleared (44_control.md R185). -/
def State.clearErrors (s : State) : State := { s with err := false, errCode := 0 }

end Sys2Proof.Machine
end

