-- ==== Sys2Proof/Machine/Ops.lean ====
section
/-! DEFINITION. The named operations: the entry buffer, acceptance and drop of a command word (44_control.md R181,
R182), raising an error (60_exceptions.md R204), completion (44_control.md R183), the result and session registers, the
register window (10_state.md R21) and the reset input (70_reset_and_hazards.md R230). -/

namespace Sys2Proof.Machine

/-! ### The entry buffer (10_state.md R34) -/

/-- The canonical form: positions strictly rising, so each is held once. -/
abbrev EntryBuffer.wf (eb : EntryBuffer) : Prop := eb.Pairwise (fun x y => x.1 < y.1)

/-- `EB[p]`, where `p in EB`. -/
def EntryBuffer.lookup (p : Nat) : EntryBuffer → Option Byte
  | []             => none
  | (q, v) :: rest => if q = p then some v else EntryBuffer.lookup p rest

/-- `p in EB`. -/
def EntryBuffer.holds (p : Nat) (eb : EntryBuffer) : Bool := (EntryBuffer.lookup p eb).isSome

/-- `EB[p] <- v`: a new position is added, a position already held takes the new byte (43_sparse_crc.md R157). -/
def EntryBuffer.put (p : Nat) (v : Byte) : EntryBuffer → EntryBuffer
  | []             => [(p, v)]
  | (q, u) :: rest =>
    if p < q then (p, v) :: (q, u) :: rest
    else if p = q then (p, v) :: rest
    else (q, u) :: EntryBuffer.put p v rest

/-! ### The pending slot and the end of a command -/

/-- Acceptance (R181): the word and its operands are latched, with no decoding. -/
def State.accept (s : State) (cmd : Word) : State := { s with pend := some (s.snapshot cmd) }

/-- A write to CMD: accepted when BUSY = 0 (R181), dropped with E_BUSY when BUSY = 1 (R182). -/
def State.issue (s : State) (cmd : Word) : State := if s.busy then s.record .busy else s.accept cmd

/-- `PEND <- none; BUSY <- 0` (R183). -/
def State.retire (s : State) : State := { s with pend := none }

/-- Taking an error (60_exceptions.md R204): `record(code)`, then the pending slot is freed, and nothing else. -/
def State.raiseError (s : State) (e : ErrorCode) : State := (s.record e).retire

/-- Completion of the pending command (R183): its rule either gives the state it leaves, and the pending slot is freed,
or raises an error, which discards all of its effect (R204). With nothing pending the step is not enabled (log 10). -/
def State.complete (s : State) (rule : Pending → State → Except ErrorCode State) : Host.Outcome State Fault Refusal :=
  match s.pend with
  | none   => .fault .noPendingCommand
  | some p =>
    match rule p s with
    | .ok t    => .next t.retire
    | .error e => .next (s.raiseError e)

/-! ### The registers a command writes -/

/-- `{R_HI, R_LO} <- v` (10_state.md R27). -/
def State.setR (s : State) (v : DWord) : State := { s with rHi := hi32 v, rLo := lo32 v }

/-- `R_LO <- w; R_HI <- 0` (10_state.md R27). -/
def State.setR32 (s : State) (w : Word) : State := { s with rHi := 0, rLo := w }

/-- `REM_ACC <- w` (10_state.md R28). -/
def State.setRemAcc (s : State) (w : Word) : State := { s with remAcc := w }

/-- A session opens: `SIZE <- n; EB <- {}; ECOUNT <- 0; SCRC_OPEN <- 1` (43_sparse_crc.md R156). -/
def State.openSession (s : State) (n : DWord) : State := { s with size := n, eb := [], scrcOpen := true }

/-- A session closes: `EB <- {}; ECOUNT <- 0; SCRC_OPEN <- 0`, and SIZE is kept (43_sparse_crc.md R158). -/
def State.closeSession (s : State) : State := { s with eb := [], scrcOpen := false }

/-- `EB[p] <- v`. -/
def State.putEntry (s : State) (p : Nat) (v : Byte) : State := { s with eb := EntryBuffer.put p v s.eb }

/-! ### The register window (10_state.md R21) -/

/-- The byte offset of a register. -/
def regOffset : Reg → Nat
  | .CMD     => 0x00
  | .STATUS  => 0x04
  | .A       => 0x08
  | .B       => 0x0C
  | .N_LO    => 0x10
  | .N_HI    => 0x14
  | .R_LO    => 0x18
  | .R_HI    => 0x1C
  | .REM_ACC => 0x20
  | .SIZE_LO => 0x24
  | .SIZE_HI => 0x28
  | .ECOUNT  => 0x2C
  | .ECAP    => 0x30
  | .RSVD34  => 0x34
  | .RSVD38  => 0x38
  | .RSVD3C  => 0x3C

/-- The registers of the window, in order of offset. -/
def windowRegs : List Reg :=
  [.CMD, .STATUS, .A, .B, .N_LO, .N_HI, .R_LO, .R_HI, .REM_ACC, .SIZE_LO, .SIZE_HI, .ECOUNT, .ECAP, .RSVD34, .RSVD38,
    .RSVD3C]

/-- The register at a byte offset, where one begins there. -/
def regAt (off : Nat) : Option Reg := windowRegs.find? (fun r => regOffset r == off)

/-- `BusRead` (20_memory.md R50): the value a read of the register returns. No read changes the state (R53). -/
def State.readReg (s : State) : Reg → Word
  | .CMD     => 0
  | .STATUS  => s.status
  | .A       => s.a
  | .B       => s.b
  | .N_LO    => s.nLo
  | .N_HI    => s.nHi
  | .R_LO    => s.rLo
  | .R_HI    => s.rHi
  | .REM_ACC => s.remAcc
  | .SIZE_LO => lo32 s.size
  | .SIZE_HI => hi32 s.size
  | .ECOUNT  => s.ecount
  | .ECAP    => s.ecap
  | .RSVD34  => 0
  | .RSVD38  => 0
  | .RSVD3C  => 0

/-- `BusWrite` (20_memory.md R54): a command issue, an operand register, or no effect. -/
def State.writeReg (s : State) (r : Reg) (v : Word) : State :=
  match r with
  | .CMD  => s.issue v
  | .A    => { s with a := v }
  | .B    => { s with b := v }
  | .N_LO => { s with nLo := v }
  | .N_HI => { s with nHi := v }
  | .STATUS | .R_LO | .R_HI | .REM_ACC | .SIZE_LO | .SIZE_HI | .ECOUNT | .ECAP | .RSVD34 | .RSVD38 | .RSVD3C => s

/-! ### The reset input (70_reset_and_hazards.md R230) -/

/-- The reset input takes a level. Asserting it puts every piece of the block's state at its reset value, from any
state; the parameters, the host's queue, the turns and what the host has read are no state of the block (log 7). -/
def State.driveReset (s : State) (asserted : Bool) : State :=
  if asserted then
    { State.resetWith s.ecap s.regBase with
      resetPin := true, hostQueue := s.hostQueue, turns := s.turns, readLog := s.readLog }
  else { s with resetPin := false }

end Sys2Proof.Machine
end

