-- ==== Sys2Proof/Machine/Clmul.lean ====
section
/-! DEFINITION. Carry-less multiplication: `clmul` (41_clmul.md R120) and CLMUL (R121). -/

namespace Sys2Proof.Machine

/-- The loop of R120: while the multiplier `aa` is not 0, its lowest bit selects the current copy `bb`, then `aa` shifts
right and `bb` left. `fuel` bounds the iterations. -/
def clmulLoop : (fuel : Nat) → (aa : Word) → (bb r : DWord) → DWord
  | 0,        _,  _,  r => r
  | fuel + 1, aa, bb, r =>
    if aa = 0 then r
    else clmulLoop fuel (aa >>> 1) (bb <<< 1) (if aa.getLsbD 0 then r ^^^ bb else r)

/-- `clmul` (R120): at most 32 iterations, since the multiplier has 32 bits. -/
def clmul (a b : Word) : DWord := clmulLoop 32 a (b.setWidth 64) 0

/-- The rule of CLMUL (R121). -/
def clMulRule (p : Pending) (s : State) : Except ErrorCode State := .ok (s.setR (clmul p.a p.b))

/-- CLMUL (R121). -/
def execClMul (s : State) : Host.Outcome State Fault Refusal := s.complete clMulRule

end Sys2Proof.Machine
end

