-- ==== Sys2Proof/Machine/Control.lean ====
section
/-! DEFINITION. CLRERR (44_control.md R185). -/

namespace Sys2Proof.Machine

/-- The rule of CLRERR (R185). -/
def clrErrRule (_ : Pending) (s : State) : Except ErrorCode State := .ok s.clearErrors

/-- CLRERR (R185). -/
def execClrErr (s : State) : Host.Outcome State Fault Refusal := s.complete clrErrRule

end Sys2Proof.Machine
end

