-- ==== Sys2Proof/Machine/Remainder.lean ====
section
/-! DEFINITION. The field remainder engine: its functions (40_remainder.md R100 to R102) and REM_LOAD, REM_BYTE and
REM_WORD (R103 to R105). -/

namespace Sys2Proof.Machine

/-- The low 32 bits of the generator, non-reflected (00_scope.md R9). -/
def glow : Word := 0x04C11DB7

/-- One bit into the accumulator (R100): shift left, the bit enters at the bottom, and a 1 shifted out at the top folds
`GLOW` in. -/
def shiftIn (acc : Word) (bit : Bool) : Word :=
  let shifted := (acc <<< 1) ||| (BitVec.ofBool bit).setWidth 32
  if acc.getLsbD 31 then shifted ^^^ glow else shifted

/-- `remstep8` (R100): the eight bits of a byte, most significant first. -/
def remstep8 (acc : Word) (b : Byte) : Word :=
  [7, 6, 5, 4, 3, 2, 1, 0].foldl (fun acc i => shiftIn acc (b.getLsbD i)) acc

/-- `remload` (R101): the leading window, folded exactly once when its top bit is set (90_conflicts.md C1). -/
def remload (w : Word) : Word := if w.getLsbD 31 then w ^^^ glow else w

/-- `rem_engine` (R102) on the bytes `be32(first) ++ rest`: the leading four bytes are a word of their own, so an input
of fewer than four bytes cannot be given (log 16). -/
def remEngine (first : Word) (rest : List Byte) : Word := rest.foldl remstep8 (remload first)

/-- `rem_engine` (R102) on a byte sequence: it has no value for fewer than four bytes. -/
def remEngineBytes : List Byte → Option Word
  | b0 :: b1 :: b2 :: b3 :: rest => some (remEngine (wordOfBytes b0 b1 b2 b3) rest)
  | _                            => none

/-- The rule of REM_LOAD (R103). -/
def remLoadRule (p : Pending) (s : State) : Except ErrorCode State :=
  .ok { s with remAcc := remload p.a, remValid := true }

/-- The rule shared by REM_BYTE and REM_WORD (R104, R105): further bytes, refused before a leading window. R104's
pseudocode is followed where its corner case on a zero byte (`REM_ACC << 8` whenever bit 31 is 0) contradicts it: a 1
shifted out at any of the eight steps folds (DEDUCED, log 18). -/
def remFeedRule (bytes : List Byte) (s : State) : Except ErrorCode State :=
  if s.remValid then .ok (s.setRemAcc (bytes.foldl remstep8 s.remAcc)) else .error .remShort

/-- REM_LOAD (R103). -/
def execRemLoad (s : State) : Host.Outcome State Fault Refusal := s.complete remLoadRule

/-- REM_BYTE imm8 (R104). -/
def execRemByte (imm : Byte) (s : State) : Host.Outcome State Fault Refusal :=
  s.complete (fun _ => remFeedRule [imm])

/-- REM_WORD (R105): the bytes of A, most significant first, with no fold of a first word. -/
def execRemWord (s : State) : Host.Outcome State Fault Refusal :=
  s.complete (fun p => remFeedRule (be32 p.a))

end Sys2Proof.Machine
end

