-- ==== Sys2Proof/Machine/Modular.lean ====
section
/-! DEFINITION. Modular multiplication and exponentiation: `modmul` and `modexp` (42_modular.md R130, R132), MODMUL
(R134) and MODEXP (R135). -/

namespace Sys2Proof.Machine

/-- `modmul` (R130): `rem_engine(be64(clmul(a, b)))`. REM_ACC is not involved (10_state.md R39). -/
def modmul (a b : Word) : Word := remEngine (hi32 (clmul a b)) (be32 (lo32 (clmul a b)))

/-- The identity, as R132 obtains it: `rem_engine([0x00, 0x00, 0x00, 0x01])`. -/
def ringOne : Word := remEngine (wordOfBytes 0x00 0x00 0x00 0x01) []

/-- The loop of R132: square and multiply over the bits of `ee`, least significant first, while a set bit is left. -/
def modexpLoop : (fuel : Nat) → (acc pw : Word) → (ee : Nat) → Word
  | 0,        acc, _,  _  => acc
  | fuel + 1, acc, pw, ee =>
    if ee = 0 then acc
    else modexpLoop fuel (if ee % 2 = 1 then modmul acc pw else acc) (modmul pw pw) (ee / 2)

/-- `modexp` (R132), for an exponent of any size: `bitlength(e)` iterations. -/
def modexp (base : Word) (e : Nat) : Word := modexpLoop (e.log2 + 1) ringOne base e

/-- The rule of MODMUL (R134). -/
def modMulRule (p : Pending) (s : State) : Except ErrorCode State := .ok (s.setR32 (modmul p.a p.b))

/-- The rule of MODEXP (R135). -/
def modExpRule (p : Pending) (s : State) : Except ErrorCode State := .ok (s.setR32 (modexp p.a p.exponent))

/-- MODMUL (R134). -/
def execModMul (s : State) : Host.Outcome State Fault Refusal := s.complete modMulRule

/-- MODEXP (R135). -/
def execModExp (s : State) : Host.Outcome State Fault Refusal := s.complete modExpRule

end Sys2Proof.Machine
end

