-- ==== Sys2Proof/Machine/SparseCrc.lean ====
section
/-! DEFINITION. The sparse CRC accumulator: its functions (43_sparse_crc.md R150 to R154) and SCRC_BEGIN, SCRC_ENTRY,
SCRC_FINISH and SREM_FINISH (R156 to R159). -/

namespace Sys2Proof.Machine

/-- `X8` (R150): the residue of x^8, obtained by reducing `[0, 0, 1, 0]`. -/
def x8 : Word := remEngine (wordOfBytes 0x00 0x00 0x01 0x00) []

/-- `V(v)` (R150): the base residue of a byte, obtained by reducing `[0, 0, 0, v]`. -/
def baseResidue (v : Byte) : Word := remEngine (wordOfBytes 0x00 0x00 0x00 v) []

/-- `contrib` (R151), for `p < L`: the exponent `L - 1 - p` is exact (log 15). -/
def contrib (L p : Nat) (v : Byte) : Word := modmul (baseResidue v) (modexp x8 (L - 1 - p))

/-- `combined` (R152): the XOR of all contributions. -/
def combined (L : Nat) (m : EntryBuffer) : Word := m.foldl (fun r e => r ^^^ contrib L e.1 e.2) 0

/-- Step 1 of R154: the working copy, values bit-reversed. -/
def reflectEntries (m : EntryBuffer) : EntryBuffer := m.map (fun e => (e.1, reflect8 e.2))

/-- Step 2 of R154 at one position: the value XOR 0xFF, or a new entry 0xFF. -/
def perturbAt (w : EntryBuffer) (p : Nat) : EntryBuffer :=
  match EntryBuffer.lookup p w with
  | some v => EntryBuffer.put p (v ^^^ 0xFF) w
  | none   => EntryBuffer.put p 0xFF w

/-- Steps 1 and 2 of R154: positions 0 to 3 of the working copy carry the initial-value convention. -/
def workingCopy (m : EntryBuffer) : EntryBuffer := [0, 1, 2, 3].foldl perturbAt (reflectEntries m)

/-- `crc_sparse` (R154): the size extended by 4, the combined remainder reflected, the final XOR. -/
def crcSparse (L : Nat) (m : EntryBuffer) : Word := reflect32 (combined (L + 4) (workingCopy m)) ^^^ 0xFFFFFFFF

/-- The rule of SCRC_BEGIN (R156). -/
def scrcBeginRule (p : Pending) (s : State) : Except ErrorCode State := .ok (s.openSession p.n)

/-- The rule of SCRC_ENTRY (R157), its errors in the order of 60_exceptions.md R205. -/
def scrcEntryRule (imm : Byte) (p : Pending) (s : State) : Except ErrorCode State :=
  if s.scrcOpen = false then .error .scrcClosed
  else if s.size ≤ p.n then .error .range
  else if EntryBuffer.holds p.position s.eb = false ∧ s.ecount = s.ecap then .error .capacity
  else .ok (s.putEntry p.position imm)

/-- The rule shared by SCRC_FINISH and SREM_FINISH (R158, R159): the result, then the session closes. -/
def finishRule (result : Nat → EntryBuffer → Word) (s : State) : Except ErrorCode State :=
  if s.scrcOpen = false then .error .scrcClosed
  else .ok (s.setR32 (result s.size.toNat s.eb)).closeSession

/-- SCRC_BEGIN (R156). -/
def execScrcBegin (s : State) : Host.Outcome State Fault Refusal := s.complete scrcBeginRule

/-- SCRC_ENTRY imm8 (R157). -/
def execScrcEntry (imm : Byte) (s : State) : Host.Outcome State Fault Refusal := s.complete (scrcEntryRule imm)

/-- SCRC_FINISH (R158). -/
def execScrcFinish (s : State) : Host.Outcome State Fault Refusal := s.complete (fun _ => finishRule crcSparse)

/-- SREM_FINISH (R159). -/
def execSremFinish (s : State) : Host.Outcome State Fault Refusal := s.complete (fun _ => finishRule combined)

end Sys2Proof.Machine
end

