-- ==== Sys2Proof/Machine/Dispatch.lean ====
section
/-! DEFINITION. One arm per command of 30_encoding.md R75: what completing it does (44_control.md R183). -/

namespace Sys2Proof.Machine

def exec (i : Instr) (s : State) : Host.Outcome State Fault Refusal :=
  match i with
  | .clrErr => Sys2Proof.Machine.execClrErr s
  | .remLoad => Sys2Proof.Machine.execRemLoad s
  | .remByte imm => Sys2Proof.Machine.execRemByte imm s
  | .remWord => Sys2Proof.Machine.execRemWord s
  | .clMul => Sys2Proof.Machine.execClMul s
  | .modMul => Sys2Proof.Machine.execModMul s
  | .modExp => Sys2Proof.Machine.execModExp s
  | .scrcBegin => Sys2Proof.Machine.execScrcBegin s
  | .scrcEntry imm => Sys2Proof.Machine.execScrcEntry imm s
  | .scrcFinish => Sys2Proof.Machine.execScrcFinish s
  | .sremFinish => Sys2Proof.Machine.execSremFinish s

end Sys2Proof.Machine
end

