-- ==== Sys2Proof/Machine/Agents.lean ====
section
/-! DEFINITION. The steps of the agents: the engine's completion (44_control.md R183), the host's access (20_memory.md
R50 to R56; 30_encoding.md R80), and whose turn it is (10_state.md R20). -/

namespace Sys2Proof.Machine

/-! ### The engine -/

/-- The engine step (R183): enabled iff PEND ≠ none; an illegal word records E_ILLEGAL and has no other effect
(30_encoding.md R76). Where it is not enabled nothing happens (log 3). -/
def engineStep (s : State) : Host.Outcome State Fault Refusal :=
  match s.pend with
  | none   => .next s
  | some p =>
    match decode p.cmd with
    | .error _ => .next (s.raiseError .illegal)
    | .ok i    => exec i s

/-! ### The host -/

/-- The offset of a host address in the window (R50), where the address is in it. -/
def windowOffset (s : State) (addr : Nat) : Option Nat :=
  if s.regBase ≤ addr ∧ addr < s.regBase + 0x40 then some (addr - s.regBase) else none

/-- One host access: `k` is what it does at the register it reaches. An access that the port does not admit has no step
(R51, R52; 70_reset_and_hazards.md R230; log 8, log 9). -/
def hostAccess (s : State) (width : AccessWidth) (addr : Nat) (k : Reg → State) : Host.Outcome State Fault Refusal :=
  if s.resetPin then .refused .accessDuringReset
  else if width ≠ .w32 then .refused .accessWidth
  else match windowOffset s addr with
    | none     => .fault .outsideWindow
    | some off =>
      match regAt off with
      | none   => .refused .misaligned
      | some r => .next (k r)

/-- A read returns the register's value to the host and has no other effect (R53). -/
def State.hostRead (s : State) (r : Reg) : State := { s with readLog := s.readReg r :: s.readLog }

/-- One turn of the `wait` loop (30_encoding.md R80): read STATUS, and loop while its bit 0 is 1. -/
def State.hostPoll (s : State) (r : Reg) : State :=
  if (s.readReg r).getLsbD 0 then { s.hostRead r with hostQueue := .wait :: s.hostQueue } else s.hostRead r

/-- The host's next access is issued: it leaves the queue. -/
def State.dequeue (s : State) : State := { s with hostQueue := s.hostQueue.tail }

/-- The host step: its next access, taken from its queue. With nothing to issue nothing happens (log 3). -/
def hostStep (s : State) : Host.Outcome State Fault Refusal :=
  match s.hostQueue with
  | []                       => .next s
  | .read width addr :: _    => hostAccess s.dequeue width addr s.dequeue.hostRead
  | .write width addr v :: _ => hostAccess s.dequeue width addr (fun r => s.dequeue.writeReg r v)
  | .wait :: _               => hostAccess s.dequeue .w32 (s.regBase + regOffset .STATUS) s.dequeue.hostPoll

/-! ### Whose turn it is -/

/-- The agent that moves next: the head of the turns; with none left, the engine while a command is pending, else the
host (log 2). -/
def nextTurn (s : State) : Turn :=
  match s.turns with
  | t :: _ => t
  | []     => if s.busy then .engine else .host

/-- The turn is used up. -/
def popTurn (s : State) : State := { s with turns := s.turns.tail }

/-- The turn comes first. -/
def pushTurn (t : Turn) (s : State) : State := { s with turns := t :: s.turns }

/-- One turn of one agent. -/
def runTurn (t : Turn) (s : State) : Host.Outcome State Fault Refusal :=
  match t with
  | .host              => hostStep s
  | .engine            => engineStep s
  | .resetPin asserted => .next (s.driveReset asserted)

/-- The word accepted now and the engine's turn next (log 13): what a CMD write of the word with BUSY = 0 leaves (R181),
whatever was pending. -/
def placeCommand (s : State) (w : Word) : State := pushTurn .engine (s.accept w)

end Sys2Proof.Machine
end

