-- ==== Sys2Proof/Machine/Step.lean ====
section
/-! DEFINITION. One step of the block: one host access, one completion or one edge of the reset input (10_state.md R20),
and the placing of a command word where the next step completes it. -/

namespace Sys2Proof.Machine

/-- One step: the turn's agent moves. -/
def step (s : State) : Host.Outcome State Fault Refusal := runTurn (nextTurn s) (popTurn s)

/-- The word of an opcode-table row placed as the pending command, with the engine's turn next (log 13). -/
def State.withFetchWord (s : State) (nbits w : Nat) : State := placeCommand s (BitVec.ofNat 32 (w % 2 ^ nbits))

end Sys2Proof.Machine
end

