-- ==== Sys2Proof/Reference.lean ====
section
/-! DEFINITION. The spec's reference functions, which no command computes and the machine never calls: the polynomial
reading of words and bytes (00_scope.md R7, R8), the generator (R9), the mathematical remainder (R12), the materialized
buffer (R16) and the byte-serial CRC-32 (R17). The statements compare the engine's own procedures with them. -/

namespace Sys2Proof.Reference

open Polynomial

/-- `v(x) = sum over i < w of v[i]·x^i` (R7). -/
noncomputable def wordPoly {w : Nat} (v : BitVec w) : (ZMod 2)[X] :=
  ∑ i ∈ Finset.range w, if v.getLsbD i then X ^ i else 0

/-- `poly(D) = sum over k < n of D[k](x)·x^(8·(n-1-k))` (R8). -/
noncomputable def bytesPoly : List Byte → (ZMod 2)[X]
  | []      => 0
  | b :: bs => wordPoly b * X ^ (8 * bs.length) + bytesPoly bs

/-- `G(x) = x^32 + GLOW(x)` (R9). -/
noncomputable def gen : (ZMod 2)[X] := X ^ 32 + wordPoly (0x04C11DB7 : Word)

/-- `polyrem(P)` (R12): the remainder of P on division by the monic G. -/
noncomputable def polyrem (P : (ZMod 2)[X]) : (ZMod 2)[X] := P %ₘ gen

/-- `materialize` (R16): `size` zero bytes, then each entry written in sequence order. R16 gives it a value for positions
below `size` only; that an entry at or above `size` is passed over is the model's choice (DESIGN CHOICE, log 19). -/
def materialize (size : Nat) (entries : List (Nat × Byte)) : List Byte :=
  entries.foldl (fun buf e => buf.set e.1 e.2) (List.replicate size 0)

/-- One bit of the byte-serial CRC-32 (R17). -/
def crcBit (c : Word) : Word := if c.getLsbD 0 then (c >>> 1) ^^^ 0xEDB88320 else c >>> 1

/-- One byte of the byte-serial CRC-32 (R17). -/
def crcByte (c : Word) (b : Byte) : Word := Nat.repeat crcBit 8 (c ^^^ b.setWidth 32)

/-- `crc32_ref` (R17, log 14). -/
def crc32Ref (D : List Byte) : Word := D.foldl crcByte 0xFFFFFFFF ^^^ 0xFFFFFFFF

end Sys2Proof.Reference
end

