-- ==== Sys2Proof/Safety.lean ====
section
/-! DEFINITION. What holds of every state a run reaches, when a run has ended (44_control.md R188), and the running of
one command. -/

namespace Sys2Proof.Machine

/-- The invariant of the block. -/
structure State.Inv (s : State) : Prop where
  /-- `ERR = 0 -> ERRCODE = 0` (10_state.md R36). -/
  errCodeClear : s.err = false → s.errCode = 0
  /-- Only the codes 1 to 6 are ever recorded (60_exceptions.md R201). -/
  errCodeListed : s.err = true → 1 ≤ s.errCode.toNat ∧ s.errCode.toNat ≤ 6
  /-- EB holds each position once (10_state.md R34), in its canonical form. -/
  ebRising : EntryBuffer.wf s.eb
  /-- Every position held is below SIZE (43_sparse_crc.md R157). -/
  ebInSize : ∀ e ∈ s.eb, e.1 < s.size.toNat
  /-- EB holds entries of an open session only (10_state.md R34, 43_sparse_crc.md R158, R159). -/
  ebClosed : s.scrcOpen = false → s.eb = []
  /-- `ECOUNT <= N_ENTRIES` (10_state.md R30). -/
  ebCapacity : s.eb.length ≤ s.ecap.toNat
  /-- `1 <= N_ENTRIES` (00_scope.md R5). -/
  capPositive : 1 ≤ s.ecap.toNat
  /-- REG_BASE is 64-byte aligned (00_scope.md R5). -/
  baseAligned : s.regBase % 64 = 0
  /-- While reset is asserted the block stays at its reset values (70_reset_and_hazards.md R230). -/
  resetHeld : s.resetPin = true → s.driveReset true = s

/-- The end of a run (R188): the host has issued its last access and PEND = none. -/
def State.ended (s : State) : Bool := s.hostQueue.isEmpty && s.pend.isNone

/-- It is the host's turn, reset is released, and `op` is its next access. -/
abbrev HostIssues (s : State) (op : HostOp) (ops : List HostOp) : Prop :=
  nextTurn s = .host ∧ s.resetPin = false ∧ s.hostQueue = op :: ops

/-- The state with the turn used up and the access issued, before the access does anything. -/
def issued (s : State) (ops : List HostOp) : State := { s with turns := s.turns.tail, hostQueue := ops }

/-- The commands of 43_sparse_crc.md. -/
def sessionCommand : Instr → Bool
  | .scrcBegin | .scrcEntry _ | .scrcFinish | .sremFinish => true
  | .clrErr | .remLoad | .remByte _ | .remWord | .clMul | .modMul | .modExp => false

/-- The commands of 40_remainder.md. -/
def remainderCommand : Instr → Bool
  | .remLoad | .remByte _ | .remWord => true
  | .clrErr | .clMul | .modMul | .modExp | .scrcBegin | .scrcEntry _ | .scrcFinish | .sremFinish => false

/-- The commands that write R (44_control.md R186). -/
def resultCommand : Instr → Bool
  | .clMul | .modMul | .modExp | .scrcFinish | .sremFinish => true
  | .clrErr | .remLoad | .remByte _ | .remWord | .scrcBegin | .scrcEntry _ => false

/-- The pending command completes at this step: it is the engine's turn and `i` is pending. -/
def Completes (s : State) (i : Instr) : Prop :=
  nextTurn s = .engine ∧ ∃ p, s.pend = some p ∧ decode p.cmd = .ok i

/-- Entries written one after another into a buffer (43_sparse_crc.md R157). -/
def putAll (entries : List Host.Cell) (m : EntryBuffer) : EntryBuffer :=
  entries.foldl (fun m e => EntryBuffer.put e.1 e.2 m) m

/-- One command run to completion with N = n: N is set, the word is placed as an accepted command, and the machine makes
its completion step. -/
def runCommand (i : Instr) (n : DWord) (s : State) : Host.Outcome State Fault Refusal :=
  step (State.withFetchWord { s with nLo := lo32 n, nHi := hi32 n } 32 (encode i).toNat)

/-- Commands run one after another, each with its N (43_sparse_crc.md R160). -/
def runCommands : List (Instr × DWord) → State → Host.Outcome State Fault Refusal
  | [],          s => .next s
  | (i, n) :: cs, s =>
    match runCommand i n s with
    | .next t    => runCommands cs t
    | .fault f   => .fault f
    | .refused r => .refused r

/-- The session of 43_sparse_crc.md R160: SCRC_BEGIN with N = L, one SCRC_ENTRY per entry in order, then a finishing
command. -/
def session (L : DWord) (entries : List (DWord × Byte)) (finish : Instr) : List (Instr × DWord) :=
  (.scrcBegin, L) :: (entries.map (fun e => (.scrcEntry e.2, e.1)) ++ [(finish, L)])

end Sys2Proof.Machine
end

