-- ==== Sys2Proof/Certificates/Slice0/Obligations.lean ====
section
/-! DEFINITION. The statements for the provers. Each says which rule of spec/ it formalises. -/

open Sys2Proof Sys2Proof.Machine Sys2Proof.Reference Polynomial

/-! ### Encoding (30_encoding.md) -/

/-- Decoding the word of a command gives the command back, for every command and every byte operand (R71, R75, R76). -/
def Obligations.DecodeOfEncodeGivesTheCommandBack : Prop := ∀ i : Instr, decode (encode i) = .ok i

/-- A word that decodes is the word of its command: no bit of it is dropped (R71, R75, R76). -/
def Obligations.DecodedWordIsTheWordOfItsCommand : Prop := ∀ (w : Word) (i : Instr), decode w = .ok i → encode i = w

/-- R75: a word selects a row iff `(w AND mask) = match`, and at most one row. -/
def Obligations.WordSelectsTheRowItDecodesTo : Prop :=
  (∀ (w : Word), ∀ r ∈ opcodeTable, r.selects w = true ↔ ∃ i, decode w = .ok i ∧ i.row = r) ∧
  ∀ (w : Word), ∀ r ∈ opcodeTable, ∀ r' ∈ opcodeTable, r.selects w = true → r'.selects w = true → r = r'

/-- R76, R77: the illegal words are those with a reserved OPC, RSVD ≠ 0, or a stray IMM8. -/
def Obligations.IllegalWordsAreTheIllFormedOnes : Prop :=
  ∀ w : Word, (∃ e, decode w = .error e) ↔
    w.extractLsb' 8 16 ≠ 0 ∨
    w.extractLsb' 24 8 ∉ ([0x01, 0x10, 0x11, 0x12, 0x20, 0x21, 0x22, 0x30, 0x31, 0x32, 0x33] : List Byte) ∨
    (w.extractLsb' 0 8 ≠ 0 ∧ w.extractLsb' 24 8 ≠ 0x11 ∧ w.extractLsb' 24 8 ≠ 0x31)

/-- R78: 9 fixed words, 256 REM_BYTE words and 256 SCRC_ENTRY words are legal, 521 in all, and the others illegal
(a count the spec marks as derived). -/
def Obligations.ThereAre521LegalWords : Prop :=
  Nat.card { w : Word // ∃ i, decode w = .ok i ∧ ∀ imm, i ≠ .remByte imm ∧ i ≠ .scrcEntry imm } = 9 ∧
  Nat.card { w : Word // ∃ imm, decode w = .ok (.remByte imm) } = 256 ∧
  Nat.card { w : Word // ∃ imm, decode w = .ok (.scrcEntry imm) } = 256 ∧
  Nat.card { w : Word // ∃ i, decode w = .ok i } = 521 ∧
  Nat.card { w : Word // ∃ e, decode w = .error e } = 2 ^ 32 - 521

/-- R75 on legal words written out, and R76 and R77 on illegal ones. The rules have the one answer ILLEGAL: which of the
three reasons an illegal word is answered with is the model's choice (log 17). -/
def Obligations.WordsOfTheMapDecode : Prop :=
  decode 0x01000000 = .ok .clrErr ∧ decode 0x10000000 = .ok .remLoad ∧ decode 0x1100009A = .ok (.remByte 0x9A) ∧
  decode 0x22000000 = .ok .modExp ∧ decode 0x310000FF = .ok (.scrcEntry 0xFF) ∧ decode 0x33000000 = .ok .sremFinish ∧
  decode 0x00000000 = .error .reservedOpcode ∧ decode 0x11000100 = .error .reservedField ∧
  decode 0x10000001 = .error .strayImmediate

/-! ### One step (44_control.md) -/

/-- R183: at the engine's turn a step is the meaning of the pending word's command, once the turn is used up. -/
def Obligations.StepRunsThePendingCommand : Prop :=
  ∀ (s : State) (p : Pending) (i : Instr), nextTurn s = .engine → s.pend = some p → decode p.cmd = .ok i →
    step s = exec i { s with turns := s.turns.tail }

/-- R76, R183: an illegal word records E_ILLEGAL unless an error is recorded already, frees PEND, and changes nothing else. -/
def Obligations.IllegalWordRecordsEIllegal : Prop :=
  ∀ (s : State) (p : Pending) (e : IllegalWord), nextTurn s = .engine → s.pend = some p → decode p.cmd = .error e →
    step s = .next { s with turns := s.turns.tail, pend := none, err := true, errCode := if s.err then s.errCode else 1 }

/-- R184: at the engine's turn the accepted command completes, whatever its word, and (log 2) the turn is the engine's
once no turn is left. -/
def Obligations.AcceptedCommandCompletes : Prop :=
  (∀ (s : State) (p : Pending), nextTurn s = .engine → s.pend = some p →
    ∃ t, step s = .next t ∧ t.pend = none ∧ t.hostQueue = s.hostQueue ∧ t.turns = s.turns.tail ∧ t.readLog = s.readLog) ∧
  ∀ (s : State) (p : Pending), s.turns = [] → s.pend = some p → nextTurn s = .engine

/-- R183: the engine step is enabled iff PEND ≠ none. With nothing pending the model's choices are that a meaning asked to
complete a command faults (log 10) and that a turn of the engine changes nothing (log 3). -/
def Obligations.NothingCompletesWithoutAPendingCommand : Prop :=
  (∀ (i : Instr) (s : State), s.pend = none → exec i s = .fault .noPendingCommand) ∧
  ∀ s : State, nextTurn s = .engine → s.pend = none → step s = .next { s with turns := s.turns.tail }

/-! ### The host port (20_memory.md, 44_control.md) -/

/-- R181: a CMD write with BUSY = 0 latches the word, whatever it is, and the operands. -/
def Obligations.CmdWriteWhileIdleIsAccepted : Prop :=
  ∀ (s : State) (w : Word) (ops : List HostOp), HostIssues s (.write .w32 (s.regBase + 0x00) w) ops → s.pend = none →
    step s = .next { issued s ops with pend := some { cmd := w, a := s.a, b := s.b, n := s.nHi ++ s.nLo } }

/-- R182: a CMD write with BUSY = 1 records E_BUSY unless an error is recorded already, and changes nothing else. -/
def Obligations.CmdWriteWhileBusyIsDropped : Prop :=
  ∀ (s : State) (p : Pending) (w : Word) (ops : List HostOp),
    HostIssues s (.write .w32 (s.regBase + 0x00) w) ops → s.pend = some p →
    step s = .next { issued s ops with err := true, errCode := if s.err then s.errCode else 2 }

/-- R54: a write to A, B, N_LO or N_HI takes effect at once, busy or not; a write to any other offset but CMD's is ignored. -/
def Obligations.HostWritesReachOnlyOperandRegisters : Prop :=
  ∀ (s : State) (off : Nat) (v : Word) (ops : List HostOp), HostIssues s (.write .w32 (s.regBase + off) v) ops →
    (off = 0x08 → step s = .next { issued s ops with a := v }) ∧
    (off = 0x0C → step s = .next { issued s ops with b := v }) ∧
    (off = 0x10 → step s = .next { issued s ops with nLo := v }) ∧
    (off = 0x14 → step s = .next { issued s ops with nHi := v }) ∧
    (off ∈ [0x04, 0x18, 0x1C, 0x20, 0x24, 0x28, 0x2C, 0x30, 0x34, 0x38, 0x3C] → step s = .next (issued s ops))

/-- R21 to R32, R50, R53: a read of the register at each offset returns its value and changes nothing but what the host
has read (log 4). -/
def Obligations.HostReadsReturnTheRegister : Prop :=
  ∀ (s : State) (k : Nat) (v : Word) (ops : List HostOp), HostIssues s (.read .w32 (s.regBase + 4 * k)) ops →
    [0, BitVec.ofNat 32 ((if s.pend.isSome then 1 else 0) + (if s.err then 2 else 0) + (if s.remValid then 4 else 0) +
        (if s.scrcOpen then 8 else 0) + 256 * s.errCode.toNat),
      s.a, s.b, s.nLo, s.nHi, s.rLo, s.rHi, s.remAcc, s.size.setWidth 32, (s.size >>> 32).setWidth 32,
      BitVec.ofNat 32 s.eb.length, s.ecap, 0, 0, 0][k]? = some v →
    step s = .next { issued s ops with readLog := v :: s.readLog }

/-- R51, R52: an access to the window that is not 32 bits wide, or not aligned, has no step. -/
def Obligations.NarrowOrMisalignedAccessIsRefused : Prop :=
  ∀ (s : State) (width : AccessWidth) (off : Nat) (v : Word) (op : HostOp) (ops : List HostOp), off < 0x40 →
    (op = .read width (s.regBase + off) ∨ op = .write width (s.regBase + off) v) → HostIssues s op ops →
    (width ≠ .w32 → step s = .refused .accessWidth) ∧
    (width = .w32 → off % 4 ≠ 0 → step s = .refused .misaligned)

/-- R50, R59 and the model's choice (log 9): an access outside the window faults. -/
def Obligations.AccessOutsideTheWindowFaults : Prop :=
  ∀ (s : State) (addr : Nat) (v : Word) (op : HostOp) (ops : List HostOp),
    (addr < s.regBase ∨ s.regBase + 0x40 ≤ addr) → (op = .read .w32 addr ∨ op = .write .w32 addr v) →
    HostIssues s op ops → step s = .fault .outsideWindow

/-- R230: while reset is asserted no host access has a step. That every access is refused under this one name, narrow,
unaligned or outside the window as it may be, is the model's choice (log 8). -/
def Obligations.AccessDuringResetIsRefused : Prop :=
  ∀ (s : State) (op : HostOp) (ops : List HostOp), nextTurn s = .host → s.resetPin = true → s.hostQueue = op :: ops →
    step s = .refused .accessDuringReset

/-- R80: a turn of `wait` reads STATUS, and the loop goes on exactly while BUSY = 1. -/
def Obligations.WaitPollsStatusUntilIdle : Prop :=
  ∀ (s : State) (ops : List HostOp), HostIssues s .wait ops →
    step s = .next { issued s (if s.pend.isSome then .wait :: ops else ops) with readLog := s.status :: s.readLog }

/-- R42, R27 to R29, R62: a step of the host never changes a result register, the accumulator, the session or a
parameter, and never frees or replaces a pending command. -/
def Obligations.HostStepsLeaveResultsAlone : Prop :=
  ∀ s t : State, nextTurn s = .host → step s = .next t →
    t.rLo = s.rLo ∧ t.rHi = s.rHi ∧ t.remAcc = s.remAcc ∧ t.remValid = s.remValid ∧ t.size = s.size ∧ t.eb = s.eb ∧
    t.scrcOpen = s.scrcOpen ∧ t.ecap = s.ecap ∧ t.regBase = s.regBase ∧ t.resetPin = s.resetPin ∧
    ∀ p, s.pend = some p → t.pend = some p

/-- R187: a write to an operand register while a command is pending takes effect at once and never changes the command's
result: the write and the completion reach the same state in either order. -/
def Obligations.OperandWritesCommuteWithCompletion : Prop :=
  ∀ (s : State) (p : Pending) (r : Reg) (v : Word) (ops : List HostOp) (ts : List Turn),
    s.pend = some p → s.resetPin = false → r ∈ [Reg.A, .B, .N_LO, .N_HI] →
    s.hostQueue = .write .w32 (s.regBase + regOffset r) v :: ops →
    ∃ u w t,
      step { s with turns := .host :: .engine :: ts } = .next u ∧ u.readReg r = v ∧ u.pend = some p ∧
      step u = .next t ∧ t.readReg r = v ∧
      step { s with turns := .engine :: .host :: ts } = .next w ∧ step w = .next t

/-! ### Reset (70_reset_and_hazards.md) -/

/-- R40: every piece of the block's state after reset. -/
def Obligations.StateAfterReset : Prop :=
  State.reset.a = 0 ∧ State.reset.b = 0 ∧ State.reset.nLo = 0 ∧ State.reset.nHi = 0 ∧ State.reset.rLo = 0 ∧
  State.reset.rHi = 0 ∧ State.reset.remAcc = 0 ∧ State.reset.remValid = false ∧ State.reset.size = 0 ∧
  State.reset.scrcOpen = false ∧ State.reset.eb = [] ∧ State.reset.readReg .ECOUNT = 0 ∧ State.reset.pend = none ∧
  State.reset.err = false ∧ State.reset.errCode = 0 ∧ State.reset.readReg .STATUS = 0 ∧ State.reset.readReg .CMD = 0 ∧
  State.reset.readReg .RSVD34 = 0 ∧ State.reset.readReg .RSVD38 = 0 ∧ State.reset.readReg .RSVD3C = 0 ∧
  State.reset.readReg .ECAP = Config.nEntries ∧ 1 ≤ Config.nEntries.toNat ∧ Config.nEntries.toNat ≤ 2 ^ 32 - 1

/-- R230: asserting reset, from any state, puts the block at its reset values; a pending command is abandoned, an open
session closed and the error record cleared, while N_ENTRIES and REG_BASE stay. -/
def Obligations.AssertingResetClearsTheBlock : Prop :=
  ∀ s : State, nextTurn s = .resetPin true → ∃ t, step s = .next t ∧
    t.a = 0 ∧ t.b = 0 ∧ t.nLo = 0 ∧ t.nHi = 0 ∧ t.rLo = 0 ∧ t.rHi = 0 ∧ t.remAcc = 0 ∧ t.remValid = false ∧ t.size = 0 ∧
    t.scrcOpen = false ∧ t.eb = [] ∧ t.pend = none ∧ t.err = false ∧ t.errCode = 0 ∧ t.ecap = s.ecap ∧
    t.regBase = s.regBase ∧ t.resetPin = true

/-! ### Errors (60_exceptions.md) -/

/-- R203: record(code) writes the record only while ERR = 0, so that a later error leaves no trace, and the first error
recorded is kept until CLRERR completes or reset is asserted. -/
def Obligations.FirstErrorIsKeptUntilCleared : Prop :=
  (∀ (s : State) (e : ErrorCode), s.err = false → s.record e = { s with err := true, errCode := e.code }) ∧
  (∀ (s : State) (e : ErrorCode), s.err = true → s.record e = s) ∧
  ∀ s t : State, s.err = true → step s = .next t →
    (t.err = true ∧ t.errCode = s.errCode) ∨ Completes s .clrErr ∨ nextTurn s = .resetPin true

/-- R204: a command that raises an error changes nothing but the record and PEND. -/
def Obligations.ErrorsAreAllOrNothing : Prop :=
  ∀ (i : Instr) (s t : State), s.err = false → exec i s = .next t → t.err = true →
    t = { s with err := true, errCode := t.errCode, pend := none }

/-- R202: which command can raise which error, and when. -/
def Obligations.EachCommandRaisesOnlyItsErrors : Prop :=
  ∀ (i : Instr) (s t : State) (p : Pending), s.err = false → s.pend = some p → exec i s = .next t → t.err = true →
    ((∃ imm, i = .remByte imm) ∨ i = .remWord) ∧ t.errCode = 3 ∧ s.remValid = false ∨
    ((∃ imm, i = .scrcEntry imm) ∨ i = .scrcFinish ∨ i = .sremFinish) ∧ t.errCode = 4 ∧ s.scrcOpen = false ∨
    (∃ imm, i = .scrcEntry imm) ∧ s.scrcOpen = true ∧
      (t.errCode = 5 ∧ s.size.toNat ≤ p.n.toNat ∨
        t.errCode = 6 ∧ p.n.toNat < s.size.toNat ∧ EntryBuffer.lookup p.n.toNat s.eb = none ∧
          s.readReg .ECOUNT = s.readReg .ECAP)

/-! ### Control (44_control.md) -/

/-- R185: CLRERR clears the record and changes nothing else. -/
def Obligations.ClrErrClearsTheRecord : Prop :=
  ∀ (s : State) (p : Pending), s.pend = some p →
    exec .clrErr s = .next { s with err := false, errCode := 0, pend := none }

/-! ### The remainder engine (40_remainder.md) -/

/-- R101, R103: REM_LOAD takes the leading window, folded exactly once when its bit 31 is set, also over a running
remainder. -/
def Obligations.RemLoadTakesTheLeadingWindow : Prop :=
  ∀ (s : State) (p : Pending), s.pend = some p →
    exec .remLoad s = .next { s with
      remAcc := if p.a.getLsbD 31 then p.a ^^^ 0x04C11DB7 else p.a, remValid := true, pend := none }

/-- R100, R104: after a leading window, REM_BYTE multiplies the accumulator by x^8, adds the byte and reduces modulo G
(R104's pseudocode, which its corner case on a zero byte contradicts: log 18). -/
def Obligations.RemByteTakesOneByte : Prop :=
  ∀ (s : State) (p : Pending) (imm : Byte), s.pend = some p → s.remValid = true →
    ∃ v, exec (.remByte imm) s = .next { s with remAcc := v, pend := none } ∧
      wordPoly v = polyrem (wordPoly s.remAcc * X ^ 8 + wordPoly imm)

/-- R100, R105: after a leading window, REM_WORD multiplies the accumulator by x^32, adds A and reduces modulo G, with no
fold of A. -/
def Obligations.RemWordTakesFourBytes : Prop :=
  ∀ (s : State) (p : Pending), s.pend = some p → s.remValid = true →
    ∃ v, exec .remWord s = .next { s with remAcc := v, pend := none } ∧
      wordPoly v = polyrem (wordPoly s.remAcc * X ^ 32 + wordPoly p.a)

/-- R104, R105: before a leading window both record E_REM_SHORT unless an error is recorded already, and leave REM_ACC. -/
def Obligations.RemFeedBeforeLoadRaisesRemShort : Prop :=
  ∀ (s : State) (p : Pending) (imm : Byte), s.pend = some p → s.remValid = false →
    exec (.remByte imm) s = .next { s with err := true, errCode := if s.err then s.errCode else 3, pend := none } ∧
    exec .remWord s = .next { s with err := true, errCode := if s.err then s.errCode else 3, pend := none }

/-- R106: a stream of remainder commands computes rem_engine of the bytes it was given (the spec marks R106 as derived
from R100 to R105). -/
def Obligations.RemainderStreamComputesRemEngine : Prop :=
  ∀ (s : State) (p : Pending) (D : List Byte), s.pend = some p →
    (∃ t, exec .remLoad s = .next t ∧ t.remValid = true ∧ remEngineBytes (be32 p.a) = some t.remAcc) ∧
    (s.remValid = true → remEngineBytes D = some s.remAcc →
      (∀ imm, ∃ t, exec (.remByte imm) s = .next t ∧ t.remValid = true ∧ remEngineBytes (D ++ [imm]) = some t.remAcc) ∧
      ∃ t, exec .remWord s = .next t ∧ t.remValid = true ∧ remEngineBytes (D ++ be32 p.a) = some t.remAcc)

/-- R107: the closed form of rem_engine, with the fold's x^(8n) exactly when the first bit is 1, and the rule's examples
(the spec marks R107 as derived from R100 to R102). -/
def Obligations.RemEngineClosedForm : Prop :=
  (∀ (d : Byte) (ds : List Byte), 3 ≤ ds.length → ∃ r, remEngineBytes (d :: ds) = some r ∧
    wordPoly r = polyrem (bytesPoly (d :: ds) + if d.getLsbD 7 then X ^ (8 * (ds.length + 1)) else 0)) ∧
  remEngineBytes [0x80, 0, 0, 0] = some 0x84C11DB7 ∧ polyrem (bytesPoly [0x80, 0, 0, 0]) = wordPoly (0x80000000 : Word) ∧
  remEngineBytes [0x80, 0, 0, 0, 0] = some 0xBB152132 ∧
  polyrem (bytesPoly [0x80, 0, 0, 0, 0]) = wordPoly (0x690CE0EE : Word)

/-! ### Carry-less multiplication (41_clmul.md) -/

/-- R120, R121: CLMUL writes the product of A and B as polynomials to R, and bit 63 is 0. -/
def Obligations.ClMulWritesTheProduct : Prop :=
  ∀ (s : State) (p : Pending), s.pend = some p →
    ∃ hi lo : Word, exec .clMul s = .next { s with rHi := hi, rLo := lo, pend := none } ∧
      wordPoly (hi ++ lo) = wordPoly p.a * wordPoly p.b ∧ hi.getLsbD 31 = false

/-- R122: the laws of clmul (the spec marks them as derived from R120). -/
def Obligations.ClmulLaws : Prop :=
  (∀ a b, clmul a b = clmul b a) ∧
  (∀ a b c, clmul a (b ^^^ c) = clmul a b ^^^ clmul a c) ∧
  (∀ a, clmul a 0 = 0 ∧ clmul a 1 = a.setWidth 64) ∧
  (∀ (a : Word) (k : Nat), k < 32 → clmul a (1 <<< k) = a.setWidth 64 <<< k) ∧
  (∀ a b, (clmul a b).toNat < 2 ^ 63) ∧
  (∀ a b : Word, a ≠ 0 → b ≠ 0 → (clmul a b).toNat.log2 = a.toNat.log2 + b.toNat.log2) ∧
  ∀ (a b : Word) (k : Nat), (clmul a b).getLsbD k =
    ((List.range (k + 1)).map (fun i => a.getLsbD i && b.getLsbD (k - i))).foldl xor false

/-! ### The ring (42_modular.md) -/

/-- R131, R134: MODMUL writes the ring product of A and B to R_LO and 0 to R_HI, and leaves REM_ACC. -/
def Obligations.ModMulWritesTheRingProduct : Prop :=
  ∀ (s : State) (p : Pending), s.pend = some p →
    ∃ v, exec .modMul s = .next { s with rHi := 0, rLo := v, pend := none } ∧
      wordPoly v = polyrem (wordPoly p.a * wordPoly p.b)

/-- R133, R135: MODEXP writes the ring power of A to the 64-bit exponent N to R_LO and 0 to R_HI, for every base and
exponent, and leaves REM_ACC. -/
def Obligations.ModExpWritesTheRingPower : Prop :=
  ∀ (s : State) (p : Pending), s.pend = some p →
    ∃ v, exec .modExp s = .next { s with rHi := 0, rLo := v, pend := none } ∧
      wordPoly v = polyrem (wordPoly p.a ^ p.n.toNat)

/-- R131: modmul is the ring product, with the consequences the rule lists (the spec marks R131 as derived from R130). -/
def Obligations.ModmulIsTheRingProduct : Prop :=
  (∀ a b, wordPoly (modmul a b) = polyrem (wordPoly a * wordPoly b)) ∧
  (∀ a b, (clmul a b).getLsbD 63 = false) ∧
  (∀ a b, modmul a b = modmul b a) ∧
  (∀ a b c, modmul (modmul a b) c = modmul a (modmul b c)) ∧
  (∀ a b c, modmul a (b ^^^ c) = modmul a b ^^^ modmul a c) ∧
  ∀ b, modmul 1 b = b ∧ modmul 0 b = 0

/-- R133: modexp is the ring power, for every base: each is a reduced residue already (the spec marks R133 as derived from
R131 and R132). -/
def Obligations.ModexpIsTheRingPower : Prop :=
  ∀ base : Word, (wordPoly base).degree < 32 ∧ (∀ e, wordPoly (modexp base e) = polyrem (wordPoly base ^ e)) ∧ modexp base 0 = 1 ∧
    modexp base 1 = base

/-- R136: the laws of the ring operations, and the order of x (the spec marks them as derived from R131 to R133, the last
found by computation). -/
def Obligations.RingExponentLaws : Prop :=
  (∀ (a : Word) (e f : Nat), modexp a (e + f) = modmul (modexp a e) (modexp a f)) ∧
  (∀ (a : Word) (e f : Nat), modexp a (e * f) = modexp (modexp a e) f) ∧
  (∀ e : Nat, wordPoly (modexp 0x00000100 e) = polyrem (X ^ (8 * e))) ∧
  (∀ e : Nat, wordPoly (modexp 0x00000002 e) = polyrem (X ^ e)) ∧
  modexp 0x00000002 0xFFFFFFFF = 0x00000001 ∧
  (∀ e f : Nat, e % (2 ^ 32 - 1) = f % (2 ^ 32 - 1) → polyrem (X ^ e) = polyrem (X ^ f)) ∧
  modexp 0x00000100 (2 ^ 64 - 1) = 0x00000001

/-! ### The sparse CRC accumulator (43_sparse_crc.md) -/

/-- R156: SCRC_BEGIN opens a session of size N with an empty buffer, abandoning any open one. -/
def Obligations.ScrcBeginOpensASession : Prop :=
  ∀ (s : State) (p : Pending), s.pend = some p →
    exec .scrcBegin s = .next { s with size := p.n, eb := [], scrcOpen := true, pend := none }

/-- R157: in an open session, at a position below SIZE that is held already or finds room, SCRC_ENTRY makes the buffer
hold the byte there, leaves every other position, and counts a new position once. -/
def Obligations.ScrcEntryStoresTheByte : Prop :=
  ∀ (s : State) (p : Pending) (imm : Byte), s.Inv → s.pend = some p → s.scrcOpen = true → p.n.toNat < s.size.toNat →
    (EntryBuffer.lookup p.n.toNat s.eb ≠ none ∨ s.readReg .ECOUNT ≠ s.readReg .ECAP) →
    ∃ m, exec (.scrcEntry imm) s = .next { s with eb := m, pend := none } ∧ EntryBuffer.wf m ∧
      (∀ q, EntryBuffer.lookup q m = if q = p.n.toNat then some imm else EntryBuffer.lookup q s.eb) ∧
      m.length = if EntryBuffer.lookup p.n.toNat s.eb = none then s.eb.length + 1 else s.eb.length

/-- R157, R205: the errors of SCRC_ENTRY in their order: no session, then range, then capacity. -/
def Obligations.ScrcEntryRaisesItsFirstError : Prop :=
  ∀ (s : State) (p : Pending) (imm : Byte), s.pend = some p →
    (s.scrcOpen = false → exec (.scrcEntry imm) s =
      .next { s with err := true, errCode := if s.err then s.errCode else 4, pend := none }) ∧
    (s.scrcOpen = true → s.size.toNat ≤ p.n.toNat → exec (.scrcEntry imm) s =
      .next { s with err := true, errCode := if s.err then s.errCode else 5, pend := none }) ∧
    (s.scrcOpen = true → p.n.toNat < s.size.toNat → EntryBuffer.lookup p.n.toNat s.eb = none →
      s.readReg .ECOUNT = s.readReg .ECAP → exec (.scrcEntry imm) s =
      .next { s with err := true, errCode := if s.err then s.errCode else 6, pend := none })

/-- R155, R158: SCRC_FINISH writes the reference CRC-32 of the materialized buffer (crc32_ref is the spec's general
knowledge, log 14) to R_LO and 0 to R_HI, and closes the session, keeping SIZE. -/
def Obligations.ScrcFinishWritesTheCrc32 : Prop :=
  ∀ (s : State) (p : Pending), s.Inv → s.pend = some p → s.scrcOpen = true →
    exec .scrcFinish s = .next { s with
      rHi := 0, rLo := crc32Ref (materialize s.size.toNat s.eb), eb := [], scrcOpen := false, pend := none }

/-- R153, R159: SREM_FINISH writes the mathematical remainder of the materialized buffer to R_LO and 0 to R_HI, and closes
the session, keeping SIZE. -/
def Obligations.SremFinishWritesTheRemainder : Prop :=
  ∀ (s : State) (p : Pending), s.Inv → s.pend = some p → s.scrcOpen = true →
    ∃ v, exec .sremFinish s = .next { s with rHi := 0, rLo := v, eb := [], scrcOpen := false, pend := none } ∧
      wordPoly v = polyrem (bytesPoly (materialize s.size.toNat s.eb))

/-- R158, R159: with no session open both record E_SCRC_CLOSED unless an error is recorded already, and leave R. -/
def Obligations.FinishWithoutSessionRaisesScrcClosed : Prop :=
  ∀ (s : State) (p : Pending) (i : Instr), s.pend = some p → s.scrcOpen = false → i = .scrcFinish ∨ i = .sremFinish →
    exec i s = .next { s with err := true, errCode := if s.err then s.errCode else 4, pend := none }

/-- R153: combined is the mathematical remainder of the buffer, each contribution that of its byte alone, with no bit-31
fold (the spec marks R153 as derived from R150 to R152). -/
def Obligations.CombinedIsTheRemainderOfTheBuffer : Prop :=
  (∀ (L : Nat) (m : EntryBuffer), EntryBuffer.wf m → (∀ e ∈ m, e.1 < L) →
    wordPoly (combined L m) = polyrem (bytesPoly (materialize L m))) ∧
  (∀ (L p : Nat) (v : Byte), p < L → wordPoly (contrib L p v) = polyrem (wordPoly v * X ^ (8 * (L - 1 - p)))) ∧
  combined 0 [] = 0

/-- R155: crc_sparse is the reference CRC-32 of the materialized buffer, for every size and every map (the spec marks R155
as derived, and crc32_ref is its general knowledge, log 14). -/
def Obligations.CrcSparseIsTheReferenceCrc : Prop :=
  ∀ (L : Nat) (m : EntryBuffer), EntryBuffer.wf m → (∀ e ∈ m, e.1 < L) → crcSparse L m = crc32Ref (materialize L m)

/-- R161, R16: the buffer keeps at each position the last byte written, and so materializes as the entries do in their
order (the spec marks R161 as derived from R157). For sizes at or below some position, for which R16 gives no value, both
sides pass that entry over, which is the model's choice (log 19). -/
def Obligations.BufferKeepsTheLastWriter : Prop :=
  ∀ entries : List Host.Cell,
    EntryBuffer.wf (putAll entries []) ∧
    (∀ q, EntryBuffer.lookup q (putAll entries []) = (entries.reverse.find? (fun e => e.1 == q)).map (·.2)) ∧
    ∀ L, materialize L (putAll entries []) = materialize L entries

/-- R162: for disjoint position sets in sessions of one size, SREM_FINISH of the union is the XOR of the two results; with
the rule's example (the spec marks R162 as derived from R152). For positions at or above SIZE, which no run holds, the
contribution is the model's choice (log 15). -/
def Obligations.SremFinishIsLinear : Prop :=
  (∀ (s : State) (p : Pending) (m m' : EntryBuffer), s.pend = some p → s.scrcOpen = true → EntryBuffer.wf m →
    EntryBuffer.wf m' → (∀ e ∈ m, ∀ e' ∈ m', e.1 ≠ e'.1) →
    ∃ t t' u, exec .sremFinish { s with eb := m } = .next t ∧ exec .sremFinish { s with eb := m' } = .next t' ∧
      exec .sremFinish { s with eb := putAll m' m } = .next u ∧ u.rLo = t.rLo ^^^ t'.rLo) ∧
  combined 8 [(0, 0x01)] = 0xDC6D9AB7 ∧ combined 8 [(4, 0x37)] = 0x37000000 ∧
  combined 8 [(0, 0x01), (4, 0x37)] = 0xEB6D9AB7

/-- R165: an entry with value 0 at a position of its own changes neither result and still counts (the spec marks R165 as
derived from R151 and R157). -/
def Obligations.ZeroEntriesCountButDoNotShow : Prop :=
  (∀ L p : Nat, p < L → contrib L p 0 = 0) ∧
  ∀ (L p : Nat) (m : EntryBuffer), EntryBuffer.wf m → (∀ e ∈ m, e.1 < L) → p < L → EntryBuffer.lookup p m = none →
    combined L (EntryBuffer.put p 0 m) = combined L m ∧ crcSparse L (EntryBuffer.put p 0 m) = crcSparse L m ∧
    (EntryBuffer.put p 0 m).length = m.length + 1

/-- R166: neither the order in which entries are visited nor the order in which entries at distinct positions are added
can show (the spec marks R166 as derived from R152). For positions at or above the size the contribution is the model's
choice (log 15). -/
def Obligations.EntryOrderCannotShow : Prop :=
  (∀ (L : Nat) (m m' : EntryBuffer), m.Perm m' → combined L m' = combined L m) ∧
  (∀ (L : Nat) (m w : EntryBuffer), w.Perm (workingCopy m) →
    reflect32 (combined (L + 4) w) ^^^ 0xFFFFFFFF = crcSparse L m) ∧
  ∀ (m : EntryBuffer) (p q : Nat) (v u : Byte), EntryBuffer.wf m → p ≠ q →
    EntryBuffer.put p v (EntryBuffer.put q u m) = EntryBuffer.put q u (EntryBuffer.put p v m)

/-- R160, R153: a whole session, run command by command from any state, on entries below its size and no more distinct
positions than N_ENTRIES: SCRC_FINISH leaves the reference CRC-32 of the buffer the entries describe and SREM_FINISH its
remainder, and no error is recorded (the spec marks R160 and R153 as derived; crc32_ref is its general knowledge,
log 14). Each command is placed by withFetchWord, in place of its CMD write and whatever was pending or the reset input
says, which is the model's choice (log 13). -/
def Obligations.SessionComputesTheChecksum : Prop :=
  ∀ (s : State) (L : DWord) (entries : List (DWord × Byte)), (∀ e ∈ entries, e.1.toNat < L.toNat) →
    (entries.map (·.1)).dedup.length ≤ s.ecap.toNat →
    (∃ t, runCommands (session L entries .scrcFinish) s = .next t ∧
      t.rLo = crc32Ref (materialize L.toNat (entries.map (fun e => (e.1.toNat, e.2)))) ∧ t.rHi = 0 ∧
      t.scrcOpen = false ∧ t.eb = [] ∧ t.size = L ∧ t.err = s.err ∧ t.errCode = s.errCode ∧ t.remAcc = s.remAcc) ∧
    ∃ t, runCommands (session L entries .sremFinish) s = .next t ∧
      wordPoly t.rLo = polyrem (bytesPoly (materialize L.toNat (entries.map (fun e => (e.1.toNat, e.2))))) ∧ t.rHi = 0 ∧
      t.scrcOpen = false ∧ t.eb = [] ∧ t.size = L ∧ t.err = s.err ∧ t.errCode = s.errCode ∧ t.remAcc = s.remAcc

/-! ### The whole machine -/

/-- The invariant holds at reset (10_state.md R40). -/
def Obligations.ResetStateMeetsTheInvariant : Prop := State.reset.Inv

/-- Every step keeps the invariant: the error record (R36, R201), the entry buffer (R30, R34, R157), the parameters (R5)
and reset (R230). -/
def Obligations.StepKeepsTheInvariant : Prop := ∀ s t : State, s.Inv → step s = .next t → t.Inv

/-- R31: ECAP is constant and reads as N_ENTRIES; no step changes it, nor REG_BASE (20_memory.md R59). -/
def Obligations.ParametersNeverChange : Prop :=
  (∀ s t : State, step s = .next t → t.ecap = s.ecap ∧ t.regBase = s.regBase) ∧
  regOffset .ECAP = 0x30 ∧ (∀ s : State, s.readReg .ECAP = s.ecap) ∧ State.reset.ecap = Config.nEntries

/-- R24 to R26, R15: completing a command never writes A, B, N_LO or N_HI, reads them from its snapshot alone, and leaves
the host's side, the turns and the reset input. -/
def Obligations.CommandsUseOnlyTheirSnapshot : Prop :=
  ∀ (i : Instr) (s t : State), exec i s = .next t →
    t.a = s.a ∧ t.b = s.b ∧ t.nLo = s.nLo ∧ t.nHi = s.nHi ∧ t.resetPin = s.resetPin ∧ t.hostQueue = s.hostQueue ∧
    t.turns = s.turns ∧ t.readLog = s.readLog ∧
    ∀ a b nLo nHi, exec i { s with a := a, b := b, nLo := nLo, nHi := nHi } =
      .next { t with a := a, b := b, nLo := nLo, nHi := nHi }

/-- R186: what each command leaves in R and REM_ACC (also R28 and R39). The row of the commands that raise an error is
said three times: of the errors each command raises by the state that raises them, of every error by the record, and of
the words that fail to decode by the step. -/
def Obligations.ResultRegisterPolicy : Prop :=
  (∀ (i : Instr) (s t : State) (p : Pending), s.pend = some p → exec i s = .next t →
    (resultCommand i = false → t.rHi = s.rHi ∧ t.rLo = s.rLo) ∧
    (remainderCommand i = false → t.remAcc = s.remAcc ∧ t.remValid = s.remValid) ∧
    (i = .remLoad → t.remAcc = remload p.a) ∧
    (∀ imm, i = .remByte imm → s.remValid = true → t.remAcc = remstep8 s.remAcc imm) ∧
    (i = .remWord → s.remValid = true → t.remAcc = (be32 p.a).foldl remstep8 s.remAcc) ∧
    (i = .clMul → pair t.rHi t.rLo = clmul p.a p.b) ∧
    (i = .modMul → t.rHi = 0 ∧ t.rLo = modmul p.a p.b) ∧
    (i = .modExp → t.rHi = 0 ∧ t.rLo = modexp p.a p.n.toNat) ∧
    (i = .scrcFinish → s.scrcOpen = true → t.rHi = 0 ∧ t.rLo = crcSparse s.size.toNat s.eb) ∧
    (i = .sremFinish → s.scrcOpen = true → t.rHi = 0 ∧ t.rLo = combined s.size.toNat s.eb) ∧
    ((∃ imm, i = .remByte imm) ∨ i = .remWord → s.remValid = false →
      t.rHi = s.rHi ∧ t.rLo = s.rLo ∧ t.remAcc = s.remAcc) ∧
    (i = .scrcFinish ∨ i = .sremFinish → s.scrcOpen = false → t.rHi = s.rHi ∧ t.rLo = s.rLo ∧ t.remAcc = s.remAcc) ∧
    (s.err = false → t.err = true → t.rHi = s.rHi ∧ t.rLo = s.rLo ∧ t.remAcc = s.remAcc)) ∧
  ∀ (s : State) (p : Pending) (e : IllegalWord), nextTurn s = .engine → s.pend = some p → decode p.cmd = .error e →
    ∃ t, step s = .next t ∧ t.rHi = s.rHi ∧ t.rLo = s.rLo ∧ t.remAcc = s.remAcc

/-- R163: the session commands neither read nor write the remainder engine's state and the operand registers; every other
command neither reads nor writes SIZE, EB and SCRC_OPEN (the spec marks R163 as derived from R74). -/
def Obligations.FamiliesDoNotDisturbEachOther : Prop :=
  (∀ (i : Instr) (s t : State), sessionCommand i = true → exec i s = .next t →
    t.remAcc = s.remAcc ∧ t.remValid = s.remValid ∧
    ∀ acc valid, exec i { s with remAcc := acc, remValid := valid } = .next { t with remAcc := acc, remValid := valid }) ∧
  ∀ (i : Instr) (s t : State), sessionCommand i = false → exec i s = .next t →
    t.size = s.size ∧ t.eb = s.eb ∧ t.scrcOpen = s.scrcOpen ∧
    ∀ z m o, exec i { s with size := z, eb := m, scrcOpen := o } = .next { t with size := z, eb := m, scrcOpen := o }

/-- R23: each flag of STATUS is set and cleared only by what the rule lists for it; ERR is set only by what records an
error (60_exceptions.md R202, R203), and ERRCODE changes only with it. -/
def Obligations.StatusFlagsChangeOnlyAsListed : Prop :=
  ∀ s t : State, step s = .next t →
    (s.pend = none → t.pend ≠ none → ∃ w ops, HostIssues s (.write .w32 (s.regBase + 0x00) w) ops) ∧
    (s.pend ≠ none → t.pend = none → nextTurn s = .engine ∨ nextTurn s = .resetPin true) ∧
    (s.err = false → t.err = true →
      (s.pend ≠ none ∧ ∃ w ops, HostIssues s (.write .w32 (s.regBase + 0x00) w) ops) ∨
      (nextTurn s = .engine ∧ ∃ p e, s.pend = some p ∧ decode p.cmd = .error e) ∨
      (∃ i, Completes s i ∧ (((∃ imm, i = .remByte imm) ∨ i = .remWord) ∧ s.remValid = false ∨
        (i = .scrcFinish ∨ i = .sremFinish) ∧ s.scrcOpen = false ∨ ∃ imm, i = .scrcEntry imm))) ∧
    (s.err = true → t.err = false → Completes s .clrErr ∨ nextTurn s = .resetPin true) ∧
    (t.errCode ≠ s.errCode → s.err = false ∧ t.err = true ∨ Completes s .clrErr ∨ nextTurn s = .resetPin true) ∧
    (s.remValid = false → t.remValid = true → Completes s .remLoad) ∧
    (s.remValid = true → t.remValid = false → nextTurn s = .resetPin true) ∧
    (s.scrcOpen = false → t.scrcOpen = true → Completes s .scrcBegin) ∧
    (s.scrcOpen = true → t.scrcOpen = false →
      Completes s .scrcFinish ∨ Completes s .sremFinish ∨ nextTurn s = .resetPin true)
end

