-- ==== Sys2Proof/Laws/Decode.lean ====
section
/-! SUPPORT. The fields of a word and the word of fields (30_encoding.md R71), and when the decoder gives a command. -/

namespace Sys2Proof

/-- The fields read back from a packed word are the fields packed. -/
@[simp] theorem fieldsOf_packFields (f : CmdFields) : fieldsOf (packFields f) = f := by
  obtain ⟨o, r, i⟩ := f
  simp only [fieldsOf, packFields, CmdFields.mk.injEq]
  refine ⟨?_, ?_, ?_⟩ <;>
  · apply BitVec.eq_of_getLsbD_eq
    intro k hk
    simp only [BitVec.getLsbD_extractLsb', BitVec.getLsbD_append, hk, decide_true, Bool.true_and]
    simp [show ¬ 24 + k < 8 by omega, show 24 + k - 8 - 16 = k by omega, show 8 + k - 8 = k by omega]
    try omega

/-- A word is the packing of its fields: every bit of the word is in one of them. -/
@[simp] theorem packFields_fieldsOf (w : Word) : packFields (fieldsOf w) = w := by
  apply BitVec.eq_of_getLsbD_eq
  intro k hk
  simp only [packFields, fieldsOf, BitVec.getLsbD_append, BitVec.getLsbD_extractLsb']
  split
  · simp [*]
  · split
    · rw [show 8 + (k - 8) = k by omega]
      simp [*]
    · rw [show 24 + (k - 8 - 16) = k by omega]
      simp [show k - 8 - 16 < 8 by omega]

/-- The commands with one fixed word: the operation code and the command name each other. -/
theorem fixedCommand_eq_some {o : Byte} {i : Instr} (h : fixedCommand o = some i) :
    i.opc = o ∧ i.imm8 = 0 := by
  unfold fixedCommand at h
  repeat' split at h
  all_goals first
    | (obtain rfl := Option.some.inj h; subst_vars; exact ⟨rfl, rfl⟩)
    | simp at h

/-- A decoded command has the fields it was decoded from. -/
theorem fields_of_decodeFields {f : CmdFields} {i : Instr} (h : decodeFields f = .ok i) : i.fields = f := by
  obtain ⟨o, r, m⟩ := f
  unfold decodeFields at h
  split at h
  · simp at h
  rename_i hr
  split at h
  · rename_i ho
    simp only [Except.ok.injEq] at h
    simp only [ne_eq, Decidable.not_not] at hr ho
    subst h hr ho
    rfl
  split at h
  · rename_i ho
    simp only [Except.ok.injEq] at h
    simp only [ne_eq, Decidable.not_not] at hr ho
    subst h hr ho
    rfl
  split at h
  · simp at h
  rename_i j hj
  split at h
  · simp at h
  rename_i hm
  simp only [Except.ok.injEq] at h
  simp only [ne_eq, Decidable.not_not] at hr hm
  subst h hr hm
  obtain ⟨h1, h2⟩ := fixedCommand_eq_some hj
  simp [Instr.fields, h1, h2]

/-- The fields of a command decode to it. -/
@[simp] theorem decodeFields_fields (i : Instr) : decodeFields i.fields = .ok i := by
  cases i <;> simp [decodeFields, Instr.fields, Instr.opc, Instr.imm8, fixedCommand]

/-- The decoder of the fields accepts exactly the well-formed ones (R76, R77). -/
theorem decodeFields_isOk_iff (f : CmdFields) : (∃ i, decodeFields f = .ok i) ↔ f.wf = true := by
  obtain ⟨o, r, m⟩ := f
  constructor
  · rintro ⟨i, h⟩
    rw [← fields_of_decodeFields h]
    cases i <;> simp [CmdFields.wf, CmdFields.rsvdClear, CmdFields.opcListed, CmdFields.immAllowed, Instr.fields,
      Instr.opc, Instr.imm8, immOpcodes, fixedOpcodes]
  · intro h
    simp only [CmdFields.wf, CmdFields.rsvdClear, CmdFields.opcListed, CmdFields.immAllowed, immOpcodes, fixedOpcodes,
      List.contains_cons, List.contains_nil, Bool.or_false, Bool.and_eq_true, Bool.or_eq_true, beq_iff_eq] at h
    obtain ⟨⟨hr, ho⟩, hm⟩ := h
    rcases ho with (rfl | rfl) | (rfl | rfl | rfl | rfl | rfl | rfl | rfl | rfl | rfl)
    · exact ⟨.remByte m, by simp [decodeFields, hr]⟩
    · exact ⟨.scrcEntry m, by simp [decodeFields, hr]⟩
    all_goals
      have hm0 : m = 0 := by simpa using hm
      subst hm0 hr
    · exact ⟨.clrErr, rfl⟩
    · exact ⟨.remLoad, rfl⟩
    · exact ⟨.remWord, rfl⟩
    · exact ⟨.clMul, rfl⟩
    · exact ⟨.modMul, rfl⟩
    · exact ⟨.modExp, rfl⟩
    · exact ⟨.scrcBegin, rfl⟩
    · exact ⟨.scrcFinish, rfl⟩
    · exact ⟨.sremFinish, rfl⟩

end Sys2Proof
end

