-- ==== Sys2Proof/Laws/EntryBuffer.lean ====
section
/-! SUPPORT. The entry buffer as a finite map: what `put` and `lookup` do, that `put` keeps the canonical form, and that
equal maps are equal lists. -/

namespace Sys2Proof.Machine

variable {p q : Nat} {v u : Byte} {eb : EntryBuffer}

@[simp] theorem EntryBuffer.lookup_nil : EntryBuffer.lookup p [] = none := rfl

theorem EntryBuffer.lookup_cons :
    EntryBuffer.lookup p ((q, v) :: eb) = if q = p then some v else EntryBuffer.lookup p eb := rfl

theorem EntryBuffer.wf_tail {x : Host.Cell} (h : EntryBuffer.wf (x :: eb)) : EntryBuffer.wf eb :=
  (List.pairwise_cons.mp h).2

/-- A position that no entry has is not held. -/
theorem EntryBuffer.lookup_eq_none_iff : EntryBuffer.lookup p eb = none ↔ ∀ e ∈ eb, e.1 ≠ p := by
  induction eb with
  | nil => simp
  | cons x xs ih =>
    obtain ⟨q, w⟩ := x
    rw [EntryBuffer.lookup_cons]
    split <;> simp_all

/-- In canonical form a position holds the byte of its one entry. -/
theorem EntryBuffer.lookup_eq_some_iff (h : EntryBuffer.wf eb) : EntryBuffer.lookup p eb = some v ↔ (p, v) ∈ eb := by
  induction eb with
  | nil => simp
  | cons x xs ih =>
    obtain ⟨q, w⟩ := x
    have hx := (List.pairwise_cons.mp h).1
    rw [EntryBuffer.lookup_cons]
    by_cases hq : q = p
    · subst hq
      have : (q, v) ∉ xs := fun hm => absurd (hx _ hm) (Nat.lt_irrefl _)
      simp [this, eq_comm]
    · have : ¬ p = q := fun h => hq h.symm
      simp [hq, this, ih (EntryBuffer.wf_tail h)]

theorem EntryBuffer.holds_iff : EntryBuffer.holds p eb = true ↔ ∃ e ∈ eb, e.1 = p := by
  rw [EntryBuffer.holds, Option.isSome_iff_ne_none, ne_eq, EntryBuffer.lookup_eq_none_iff]
  push Not
  rfl

/-- The entries after `put`: the new one, and those at other positions. -/
theorem EntryBuffer.mem_put (h : EntryBuffer.wf eb) {e : Host.Cell} :
    e ∈ EntryBuffer.put p v eb ↔ e = (p, v) ∨ (e ∈ eb ∧ e.1 ≠ p) := by
  induction eb with
  | nil => simp [EntryBuffer.put]
  | cons x xs ih =>
    obtain ⟨q, w⟩ := x
    have hx := (List.pairwise_cons.mp h).1
    have ih := ih (EntryBuffer.wf_tail h)
    unfold EntryBuffer.put
    split
    · rename_i hlt
      have : ∀ y ∈ (q, w) :: xs, y.1 ≠ p := by
        rintro y hy
        rcases List.mem_cons.mp hy with rfl | hy
        · simp; omega
        · have := hx y hy; simp at this; omega
      constructor
      · intro hm
        rcases List.mem_cons.mp hm with rfl | hm
        · exact .inl rfl
        · exact .inr ⟨hm, this e hm⟩
      · rintro (rfl | ⟨hm, -⟩)
        · simp
        · exact List.mem_cons_of_mem _ hm
    · split
      · rename_i _ hpq
        subst hpq
        have : ∀ y ∈ xs, y.1 ≠ p := fun y hy => by have := hx y hy; simp at this; omega
        constructor
        · intro hm
          rcases List.mem_cons.mp hm with rfl | hm
          · exact .inl rfl
          · exact .inr ⟨List.mem_cons_of_mem _ hm, this e hm⟩
        · rintro (rfl | ⟨hm, hne⟩)
          · simp
          · rcases List.mem_cons.mp hm with rfl | hm
            · simp at hne
            · exact List.mem_cons_of_mem _ hm
      · rename_i _ hne
        simp only [List.mem_cons, ih]
        constructor
        · rintro (rfl | rfl | ⟨hm, hne'⟩)
          · exact .inr ⟨.inl rfl, fun h => hne h.symm⟩
          · exact .inl rfl
          · exact .inr ⟨.inr hm, hne'⟩
        · rintro (rfl | ⟨rfl | hm, hne'⟩)
          · exact .inr (.inl rfl)
          · exact .inl rfl
          · exact .inr (.inr ⟨hm, hne'⟩)

/-- `put` keeps the canonical form. -/
theorem EntryBuffer.wf_put (h : EntryBuffer.wf eb) : EntryBuffer.wf (EntryBuffer.put p v eb) := by
  induction eb with
  | nil => simp [EntryBuffer.put, EntryBuffer.wf]
  | cons x xs ih =>
    obtain ⟨q, w⟩ := x
    have hx := (List.pairwise_cons.mp h).1
    have ht := EntryBuffer.wf_tail h
    unfold EntryBuffer.put
    split
    · rename_i hlt
      refine List.pairwise_cons.mpr ⟨fun y hy => ?_, h⟩
      rcases List.mem_cons.mp hy with rfl | hy
      · exact hlt
      · exact Nat.lt_trans hlt (hx y hy)
    · split
      · rename_i _ hpq
        subst hpq
        exact List.pairwise_cons.mpr ⟨hx, ht⟩
      · rename_i hnlt hne
        refine List.pairwise_cons.mpr ⟨fun y hy => ?_, ih ht⟩
        rcases (EntryBuffer.mem_put ht).mp hy with rfl | ⟨hy, -⟩
        · show q < p
          omega
        · exact hx y hy

/-- A new position adds one entry, a position already held none. -/
theorem EntryBuffer.length_put (h : EntryBuffer.wf eb) :
    (EntryBuffer.put p v eb).length = if EntryBuffer.holds p eb then eb.length else eb.length + 1 := by
  induction eb with
  | nil => simp [EntryBuffer.put, EntryBuffer.holds]
  | cons x xs ih =>
    obtain ⟨q, w⟩ := x
    have hx := (List.pairwise_cons.mp h).1
    have ih := ih (EntryBuffer.wf_tail h)
    unfold EntryBuffer.put
    split
    · rename_i hlt
      have : EntryBuffer.holds p ((q, w) :: xs) = false := by
        rw [Bool.eq_false_iff, ne_eq, EntryBuffer.holds_iff]
        rintro ⟨e, he, rfl⟩
        rcases List.mem_cons.mp he with rfl | he
        · exact Nat.lt_irrefl _ hlt
        · exact absurd (Nat.lt_trans hlt (hx e he)) (Nat.lt_irrefl _)
      simp [this]
    · split
      · rename_i _ hpq
        simp [EntryBuffer.holds, EntryBuffer.lookup_cons, hpq]
      · rename_i _ hne
        have : EntryBuffer.holds p ((q, w) :: xs) = EntryBuffer.holds p xs := by
          have : ¬ q = p := fun h => hne h.symm
          simp [EntryBuffer.holds, EntryBuffer.lookup_cons, this]
        rw [this, List.length_cons, ih]
        split <;> simp

/-- Reading back: the position written gives the byte written, every other position what it gave before. -/
theorem EntryBuffer.lookup_put (h : EntryBuffer.wf eb) :
    EntryBuffer.lookup q (EntryBuffer.put p v eb) = if q = p then some v else EntryBuffer.lookup q eb := by
  cases hl : EntryBuffer.lookup q (EntryBuffer.put p v eb) with
  | none =>
    rw [EntryBuffer.lookup_eq_none_iff] at hl
    have hqp : q ≠ p := fun hqp => hl (p, v) ((EntryBuffer.mem_put h).mpr (.inl rfl)) hqp.symm
    rw [if_neg hqp, eq_comm, EntryBuffer.lookup_eq_none_iff]
    rintro e he rfl
    exact hl e ((EntryBuffer.mem_put h).mpr (.inr ⟨he, hqp⟩)) rfl
  | some w =>
    rw [EntryBuffer.lookup_eq_some_iff (EntryBuffer.wf_put h), EntryBuffer.mem_put h] at hl
    rcases hl with hl | ⟨hm, hne⟩
    · obtain ⟨rfl, rfl⟩ := Prod.mk.inj hl
      simp
    · rw [if_neg hne, eq_comm, EntryBuffer.lookup_eq_some_iff h]
      exact hm

/-- Two canonical buffers that hold the same entries are the same list. -/
theorem EntryBuffer.ext_of_mem {m : EntryBuffer} (h : EntryBuffer.wf eb) (hm : EntryBuffer.wf m)
    (heq : ∀ e, e ∈ eb ↔ e ∈ m) : eb = m := by
  have nodup : ∀ {l : EntryBuffer}, EntryBuffer.wf l → l.Nodup := fun hl =>
    hl.imp (fun hlt => fun h => absurd (h ▸ hlt) (Nat.lt_irrefl _))
  refine List.Perm.eq_of_pairwise (le := fun x y => x.1 < y.1) ?_ h hm
    ((List.perm_ext_iff_of_nodup (nodup h) (nodup hm)).mpr heq)
  intro x y _ _ hxy hyx
  exact absurd (Nat.lt_trans hxy hyx) (Nat.lt_irrefl _)

end Sys2Proof.Machine
end

