-- ==== Sys2Proof/Laws/Flags.lean ====
section
/-! SUPPORT. STATUS bit by bit (10_state.md R23), and the values of the error codes (60_exceptions.md R201). -/

namespace Sys2Proof.Machine

/-- STATUS as a number: each flag at the weight of its bit, ERRCODE at bits 11:8, and nothing else. -/
theorem State.status_toNat (s : State) :
    s.status.toNat = s.busy.toNat + 2 * s.err.toNat + 4 * s.remValid.toNat + 8 * s.scrcOpen.toNat +
      256 * s.errCode.toNat := by
  unfold State.status
  generalize s.errCode = e
  cases s.busy <;> cases s.err <;> cases s.remValid <;> cases s.scrcOpen <;> revert e <;> decide

/-- STATUS bit 0 is BUSY: what `wait` tests (30_encoding.md R80). -/
@[simp] theorem State.status_bit0 (s : State) : s.status.getLsbD 0 = s.busy := by
  unfold State.status
  generalize s.errCode = e
  cases s.busy <;> cases s.err <;> cases s.remValid <;> cases s.scrcOpen <;> revert e <;> decide

/-- Every error has a code from 1 to 6. -/
theorem ErrorCode.code_bounds (e : ErrorCode) : 1 ≤ e.code.toNat ∧ e.code.toNat ≤ 6 := by cases e <;> decide

/-- Different errors have different codes. -/
theorem ErrorCode.code_injective {e f : ErrorCode} (h : e.code = f.code) : e = f := by
  revert h
  cases e <;> cases f <;> decide

end Sys2Proof.Machine
end

