-- ==== Sys2Proof/Laws/State.lean ====
section
/-! SUPPORT. One lemma per field of State per update, so that no proof unfolds a record update. -/

namespace Sys2Proof.Machine

variable (s : State)

/-! The record cleared -/

@[simp] theorem State.clearErrors_a : s.clearErrors.a = s.a := rfl
@[simp] theorem State.clearErrors_b : s.clearErrors.b = s.b := rfl
@[simp] theorem State.clearErrors_nLo : s.clearErrors.nLo = s.nLo := rfl
@[simp] theorem State.clearErrors_nHi : s.clearErrors.nHi = s.nHi := rfl
@[simp] theorem State.clearErrors_rLo : s.clearErrors.rLo = s.rLo := rfl
@[simp] theorem State.clearErrors_rHi : s.clearErrors.rHi = s.rHi := rfl
@[simp] theorem State.clearErrors_remAcc : s.clearErrors.remAcc = s.remAcc := rfl
@[simp] theorem State.clearErrors_remValid : s.clearErrors.remValid = s.remValid := rfl
@[simp] theorem State.clearErrors_size : s.clearErrors.size = s.size := rfl
@[simp] theorem State.clearErrors_scrcOpen : s.clearErrors.scrcOpen = s.scrcOpen := rfl
@[simp] theorem State.clearErrors_eb : s.clearErrors.eb = s.eb := rfl
@[simp] theorem State.clearErrors_pend : s.clearErrors.pend = s.pend := rfl
@[simp] theorem State.clearErrors_err : s.clearErrors.err = false := rfl
@[simp] theorem State.clearErrors_errCode : s.clearErrors.errCode = 0 := rfl
@[simp] theorem State.clearErrors_ecap : s.clearErrors.ecap = s.ecap := rfl
@[simp] theorem State.clearErrors_regBase : s.clearErrors.regBase = s.regBase := rfl
@[simp] theorem State.clearErrors_resetPin : s.clearErrors.resetPin = s.resetPin := rfl
@[simp] theorem State.clearErrors_hostQueue : s.clearErrors.hostQueue = s.hostQueue := rfl
@[simp] theorem State.clearErrors_turns : s.clearErrors.turns = s.turns := rfl
@[simp] theorem State.clearErrors_readLog : s.clearErrors.readLog = s.readLog := rfl

/-! Acceptance -/

@[simp] theorem State.accept_a (cmd : Word) : (s.accept cmd).a = s.a := rfl
@[simp] theorem State.accept_b (cmd : Word) : (s.accept cmd).b = s.b := rfl
@[simp] theorem State.accept_nLo (cmd : Word) : (s.accept cmd).nLo = s.nLo := rfl
@[simp] theorem State.accept_nHi (cmd : Word) : (s.accept cmd).nHi = s.nHi := rfl
@[simp] theorem State.accept_rLo (cmd : Word) : (s.accept cmd).rLo = s.rLo := rfl
@[simp] theorem State.accept_rHi (cmd : Word) : (s.accept cmd).rHi = s.rHi := rfl
@[simp] theorem State.accept_remAcc (cmd : Word) : (s.accept cmd).remAcc = s.remAcc := rfl
@[simp] theorem State.accept_remValid (cmd : Word) : (s.accept cmd).remValid = s.remValid := rfl
@[simp] theorem State.accept_size (cmd : Word) : (s.accept cmd).size = s.size := rfl
@[simp] theorem State.accept_scrcOpen (cmd : Word) : (s.accept cmd).scrcOpen = s.scrcOpen := rfl
@[simp] theorem State.accept_eb (cmd : Word) : (s.accept cmd).eb = s.eb := rfl
@[simp] theorem State.accept_pend (cmd : Word) : (s.accept cmd).pend = some (s.snapshot cmd) := rfl
@[simp] theorem State.accept_err (cmd : Word) : (s.accept cmd).err = s.err := rfl
@[simp] theorem State.accept_errCode (cmd : Word) : (s.accept cmd).errCode = s.errCode := rfl
@[simp] theorem State.accept_ecap (cmd : Word) : (s.accept cmd).ecap = s.ecap := rfl
@[simp] theorem State.accept_regBase (cmd : Word) : (s.accept cmd).regBase = s.regBase := rfl
@[simp] theorem State.accept_resetPin (cmd : Word) : (s.accept cmd).resetPin = s.resetPin := rfl
@[simp] theorem State.accept_hostQueue (cmd : Word) : (s.accept cmd).hostQueue = s.hostQueue := rfl
@[simp] theorem State.accept_turns (cmd : Word) : (s.accept cmd).turns = s.turns := rfl
@[simp] theorem State.accept_readLog (cmd : Word) : (s.accept cmd).readLog = s.readLog := rfl

/-! The pending slot freed -/

@[simp] theorem State.retire_a : s.retire.a = s.a := rfl
@[simp] theorem State.retire_b : s.retire.b = s.b := rfl
@[simp] theorem State.retire_nLo : s.retire.nLo = s.nLo := rfl
@[simp] theorem State.retire_nHi : s.retire.nHi = s.nHi := rfl
@[simp] theorem State.retire_rLo : s.retire.rLo = s.rLo := rfl
@[simp] theorem State.retire_rHi : s.retire.rHi = s.rHi := rfl
@[simp] theorem State.retire_remAcc : s.retire.remAcc = s.remAcc := rfl
@[simp] theorem State.retire_remValid : s.retire.remValid = s.remValid := rfl
@[simp] theorem State.retire_size : s.retire.size = s.size := rfl
@[simp] theorem State.retire_scrcOpen : s.retire.scrcOpen = s.scrcOpen := rfl
@[simp] theorem State.retire_eb : s.retire.eb = s.eb := rfl
@[simp] theorem State.retire_pend : s.retire.pend = none := rfl
@[simp] theorem State.retire_err : s.retire.err = s.err := rfl
@[simp] theorem State.retire_errCode : s.retire.errCode = s.errCode := rfl
@[simp] theorem State.retire_ecap : s.retire.ecap = s.ecap := rfl
@[simp] theorem State.retire_regBase : s.retire.regBase = s.regBase := rfl
@[simp] theorem State.retire_resetPin : s.retire.resetPin = s.resetPin := rfl
@[simp] theorem State.retire_hostQueue : s.retire.hostQueue = s.hostQueue := rfl
@[simp] theorem State.retire_turns : s.retire.turns = s.turns := rfl
@[simp] theorem State.retire_readLog : s.retire.readLog = s.readLog := rfl

/-! `{R_HI, R_LO} <- v` -/

@[simp] theorem State.setR_a (v : DWord) : (s.setR v).a = s.a := rfl
@[simp] theorem State.setR_b (v : DWord) : (s.setR v).b = s.b := rfl
@[simp] theorem State.setR_nLo (v : DWord) : (s.setR v).nLo = s.nLo := rfl
@[simp] theorem State.setR_nHi (v : DWord) : (s.setR v).nHi = s.nHi := rfl
@[simp] theorem State.setR_rLo (v : DWord) : (s.setR v).rLo = lo32 v := rfl
@[simp] theorem State.setR_rHi (v : DWord) : (s.setR v).rHi = hi32 v := rfl
@[simp] theorem State.setR_remAcc (v : DWord) : (s.setR v).remAcc = s.remAcc := rfl
@[simp] theorem State.setR_remValid (v : DWord) : (s.setR v).remValid = s.remValid := rfl
@[simp] theorem State.setR_size (v : DWord) : (s.setR v).size = s.size := rfl
@[simp] theorem State.setR_scrcOpen (v : DWord) : (s.setR v).scrcOpen = s.scrcOpen := rfl
@[simp] theorem State.setR_eb (v : DWord) : (s.setR v).eb = s.eb := rfl
@[simp] theorem State.setR_pend (v : DWord) : (s.setR v).pend = s.pend := rfl
@[simp] theorem State.setR_err (v : DWord) : (s.setR v).err = s.err := rfl
@[simp] theorem State.setR_errCode (v : DWord) : (s.setR v).errCode = s.errCode := rfl
@[simp] theorem State.setR_ecap (v : DWord) : (s.setR v).ecap = s.ecap := rfl
@[simp] theorem State.setR_regBase (v : DWord) : (s.setR v).regBase = s.regBase := rfl
@[simp] theorem State.setR_resetPin (v : DWord) : (s.setR v).resetPin = s.resetPin := rfl
@[simp] theorem State.setR_hostQueue (v : DWord) : (s.setR v).hostQueue = s.hostQueue := rfl
@[simp] theorem State.setR_turns (v : DWord) : (s.setR v).turns = s.turns := rfl
@[simp] theorem State.setR_readLog (v : DWord) : (s.setR v).readLog = s.readLog := rfl

/-! `R_LO <- w; R_HI <- 0` -/

@[simp] theorem State.setR32_a (w : Word) : (s.setR32 w).a = s.a := rfl
@[simp] theorem State.setR32_b (w : Word) : (s.setR32 w).b = s.b := rfl
@[simp] theorem State.setR32_nLo (w : Word) : (s.setR32 w).nLo = s.nLo := rfl
@[simp] theorem State.setR32_nHi (w : Word) : (s.setR32 w).nHi = s.nHi := rfl
@[simp] theorem State.setR32_rLo (w : Word) : (s.setR32 w).rLo = w := rfl
@[simp] theorem State.setR32_rHi (w : Word) : (s.setR32 w).rHi = 0 := rfl
@[simp] theorem State.setR32_remAcc (w : Word) : (s.setR32 w).remAcc = s.remAcc := rfl
@[simp] theorem State.setR32_remValid (w : Word) : (s.setR32 w).remValid = s.remValid := rfl
@[simp] theorem State.setR32_size (w : Word) : (s.setR32 w).size = s.size := rfl
@[simp] theorem State.setR32_scrcOpen (w : Word) : (s.setR32 w).scrcOpen = s.scrcOpen := rfl
@[simp] theorem State.setR32_eb (w : Word) : (s.setR32 w).eb = s.eb := rfl
@[simp] theorem State.setR32_pend (w : Word) : (s.setR32 w).pend = s.pend := rfl
@[simp] theorem State.setR32_err (w : Word) : (s.setR32 w).err = s.err := rfl
@[simp] theorem State.setR32_errCode (w : Word) : (s.setR32 w).errCode = s.errCode := rfl
@[simp] theorem State.setR32_ecap (w : Word) : (s.setR32 w).ecap = s.ecap := rfl
@[simp] theorem State.setR32_regBase (w : Word) : (s.setR32 w).regBase = s.regBase := rfl
@[simp] theorem State.setR32_resetPin (w : Word) : (s.setR32 w).resetPin = s.resetPin := rfl
@[simp] theorem State.setR32_hostQueue (w : Word) : (s.setR32 w).hostQueue = s.hostQueue := rfl
@[simp] theorem State.setR32_turns (w : Word) : (s.setR32 w).turns = s.turns := rfl
@[simp] theorem State.setR32_readLog (w : Word) : (s.setR32 w).readLog = s.readLog := rfl

/-! `REM_ACC <- w` -/

@[simp] theorem State.setRemAcc_a (w : Word) : (s.setRemAcc w).a = s.a := rfl
@[simp] theorem State.setRemAcc_b (w : Word) : (s.setRemAcc w).b = s.b := rfl
@[simp] theorem State.setRemAcc_nLo (w : Word) : (s.setRemAcc w).nLo = s.nLo := rfl
@[simp] theorem State.setRemAcc_nHi (w : Word) : (s.setRemAcc w).nHi = s.nHi := rfl
@[simp] theorem State.setRemAcc_rLo (w : Word) : (s.setRemAcc w).rLo = s.rLo := rfl
@[simp] theorem State.setRemAcc_rHi (w : Word) : (s.setRemAcc w).rHi = s.rHi := rfl
@[simp] theorem State.setRemAcc_remAcc (w : Word) : (s.setRemAcc w).remAcc = w := rfl
@[simp] theorem State.setRemAcc_remValid (w : Word) : (s.setRemAcc w).remValid = s.remValid := rfl
@[simp] theorem State.setRemAcc_size (w : Word) : (s.setRemAcc w).size = s.size := rfl
@[simp] theorem State.setRemAcc_scrcOpen (w : Word) : (s.setRemAcc w).scrcOpen = s.scrcOpen := rfl
@[simp] theorem State.setRemAcc_eb (w : Word) : (s.setRemAcc w).eb = s.eb := rfl
@[simp] theorem State.setRemAcc_pend (w : Word) : (s.setRemAcc w).pend = s.pend := rfl
@[simp] theorem State.setRemAcc_err (w : Word) : (s.setRemAcc w).err = s.err := rfl
@[simp] theorem State.setRemAcc_errCode (w : Word) : (s.setRemAcc w).errCode = s.errCode := rfl
@[simp] theorem State.setRemAcc_ecap (w : Word) : (s.setRemAcc w).ecap = s.ecap := rfl
@[simp] theorem State.setRemAcc_regBase (w : Word) : (s.setRemAcc w).regBase = s.regBase := rfl
@[simp] theorem State.setRemAcc_resetPin (w : Word) : (s.setRemAcc w).resetPin = s.resetPin := rfl
@[simp] theorem State.setRemAcc_hostQueue (w : Word) : (s.setRemAcc w).hostQueue = s.hostQueue := rfl
@[simp] theorem State.setRemAcc_turns (w : Word) : (s.setRemAcc w).turns = s.turns := rfl
@[simp] theorem State.setRemAcc_readLog (w : Word) : (s.setRemAcc w).readLog = s.readLog := rfl

/-! A session opens -/

@[simp] theorem State.openSession_a (n : DWord) : (s.openSession n).a = s.a := rfl
@[simp] theorem State.openSession_b (n : DWord) : (s.openSession n).b = s.b := rfl
@[simp] theorem State.openSession_nLo (n : DWord) : (s.openSession n).nLo = s.nLo := rfl
@[simp] theorem State.openSession_nHi (n : DWord) : (s.openSession n).nHi = s.nHi := rfl
@[simp] theorem State.openSession_rLo (n : DWord) : (s.openSession n).rLo = s.rLo := rfl
@[simp] theorem State.openSession_rHi (n : DWord) : (s.openSession n).rHi = s.rHi := rfl
@[simp] theorem State.openSession_remAcc (n : DWord) : (s.openSession n).remAcc = s.remAcc := rfl
@[simp] theorem State.openSession_remValid (n : DWord) : (s.openSession n).remValid = s.remValid := rfl
@[simp] theorem State.openSession_size (n : DWord) : (s.openSession n).size = n := rfl
@[simp] theorem State.openSession_scrcOpen (n : DWord) : (s.openSession n).scrcOpen = true := rfl
@[simp] theorem State.openSession_eb (n : DWord) : (s.openSession n).eb = [] := rfl
@[simp] theorem State.openSession_pend (n : DWord) : (s.openSession n).pend = s.pend := rfl
@[simp] theorem State.openSession_err (n : DWord) : (s.openSession n).err = s.err := rfl
@[simp] theorem State.openSession_errCode (n : DWord) : (s.openSession n).errCode = s.errCode := rfl
@[simp] theorem State.openSession_ecap (n : DWord) : (s.openSession n).ecap = s.ecap := rfl
@[simp] theorem State.openSession_regBase (n : DWord) : (s.openSession n).regBase = s.regBase := rfl
@[simp] theorem State.openSession_resetPin (n : DWord) : (s.openSession n).resetPin = s.resetPin := rfl
@[simp] theorem State.openSession_hostQueue (n : DWord) : (s.openSession n).hostQueue = s.hostQueue := rfl
@[simp] theorem State.openSession_turns (n : DWord) : (s.openSession n).turns = s.turns := rfl
@[simp] theorem State.openSession_readLog (n : DWord) : (s.openSession n).readLog = s.readLog := rfl

/-! A session closes -/

@[simp] theorem State.closeSession_a : s.closeSession.a = s.a := rfl
@[simp] theorem State.closeSession_b : s.closeSession.b = s.b := rfl
@[simp] theorem State.closeSession_nLo : s.closeSession.nLo = s.nLo := rfl
@[simp] theorem State.closeSession_nHi : s.closeSession.nHi = s.nHi := rfl
@[simp] theorem State.closeSession_rLo : s.closeSession.rLo = s.rLo := rfl
@[simp] theorem State.closeSession_rHi : s.closeSession.rHi = s.rHi := rfl
@[simp] theorem State.closeSession_remAcc : s.closeSession.remAcc = s.remAcc := rfl
@[simp] theorem State.closeSession_remValid : s.closeSession.remValid = s.remValid := rfl
@[simp] theorem State.closeSession_size : s.closeSession.size = s.size := rfl
@[simp] theorem State.closeSession_scrcOpen : s.closeSession.scrcOpen = false := rfl
@[simp] theorem State.closeSession_eb : s.closeSession.eb = [] := rfl
@[simp] theorem State.closeSession_pend : s.closeSession.pend = s.pend := rfl
@[simp] theorem State.closeSession_err : s.closeSession.err = s.err := rfl
@[simp] theorem State.closeSession_errCode : s.closeSession.errCode = s.errCode := rfl
@[simp] theorem State.closeSession_ecap : s.closeSession.ecap = s.ecap := rfl
@[simp] theorem State.closeSession_regBase : s.closeSession.regBase = s.regBase := rfl
@[simp] theorem State.closeSession_resetPin : s.closeSession.resetPin = s.resetPin := rfl
@[simp] theorem State.closeSession_hostQueue : s.closeSession.hostQueue = s.hostQueue := rfl
@[simp] theorem State.closeSession_turns : s.closeSession.turns = s.turns := rfl
@[simp] theorem State.closeSession_readLog : s.closeSession.readLog = s.readLog := rfl

/-! `EB[p] <- v` -/

@[simp] theorem State.putEntry_a (p : Nat) (v : Byte) : (s.putEntry p v).a = s.a := rfl
@[simp] theorem State.putEntry_b (p : Nat) (v : Byte) : (s.putEntry p v).b = s.b := rfl
@[simp] theorem State.putEntry_nLo (p : Nat) (v : Byte) : (s.putEntry p v).nLo = s.nLo := rfl
@[simp] theorem State.putEntry_nHi (p : Nat) (v : Byte) : (s.putEntry p v).nHi = s.nHi := rfl
@[simp] theorem State.putEntry_rLo (p : Nat) (v : Byte) : (s.putEntry p v).rLo = s.rLo := rfl
@[simp] theorem State.putEntry_rHi (p : Nat) (v : Byte) : (s.putEntry p v).rHi = s.rHi := rfl
@[simp] theorem State.putEntry_remAcc (p : Nat) (v : Byte) : (s.putEntry p v).remAcc = s.remAcc := rfl
@[simp] theorem State.putEntry_remValid (p : Nat) (v : Byte) : (s.putEntry p v).remValid = s.remValid := rfl
@[simp] theorem State.putEntry_size (p : Nat) (v : Byte) : (s.putEntry p v).size = s.size := rfl
@[simp] theorem State.putEntry_scrcOpen (p : Nat) (v : Byte) : (s.putEntry p v).scrcOpen = s.scrcOpen := rfl
@[simp] theorem State.putEntry_eb (p : Nat) (v : Byte) : (s.putEntry p v).eb = EntryBuffer.put p v s.eb := rfl
@[simp] theorem State.putEntry_pend (p : Nat) (v : Byte) : (s.putEntry p v).pend = s.pend := rfl
@[simp] theorem State.putEntry_err (p : Nat) (v : Byte) : (s.putEntry p v).err = s.err := rfl
@[simp] theorem State.putEntry_errCode (p : Nat) (v : Byte) : (s.putEntry p v).errCode = s.errCode := rfl
@[simp] theorem State.putEntry_ecap (p : Nat) (v : Byte) : (s.putEntry p v).ecap = s.ecap := rfl
@[simp] theorem State.putEntry_regBase (p : Nat) (v : Byte) : (s.putEntry p v).regBase = s.regBase := rfl
@[simp] theorem State.putEntry_resetPin (p : Nat) (v : Byte) : (s.putEntry p v).resetPin = s.resetPin := rfl
@[simp] theorem State.putEntry_hostQueue (p : Nat) (v : Byte) : (s.putEntry p v).hostQueue = s.hostQueue := rfl
@[simp] theorem State.putEntry_turns (p : Nat) (v : Byte) : (s.putEntry p v).turns = s.turns := rfl
@[simp] theorem State.putEntry_readLog (p : Nat) (v : Byte) : (s.putEntry p v).readLog = s.readLog := rfl

/-! A host read -/

@[simp] theorem State.hostRead_a (r : Reg) : (s.hostRead r).a = s.a := rfl
@[simp] theorem State.hostRead_b (r : Reg) : (s.hostRead r).b = s.b := rfl
@[simp] theorem State.hostRead_nLo (r : Reg) : (s.hostRead r).nLo = s.nLo := rfl
@[simp] theorem State.hostRead_nHi (r : Reg) : (s.hostRead r).nHi = s.nHi := rfl
@[simp] theorem State.hostRead_rLo (r : Reg) : (s.hostRead r).rLo = s.rLo := rfl
@[simp] theorem State.hostRead_rHi (r : Reg) : (s.hostRead r).rHi = s.rHi := rfl
@[simp] theorem State.hostRead_remAcc (r : Reg) : (s.hostRead r).remAcc = s.remAcc := rfl
@[simp] theorem State.hostRead_remValid (r : Reg) : (s.hostRead r).remValid = s.remValid := rfl
@[simp] theorem State.hostRead_size (r : Reg) : (s.hostRead r).size = s.size := rfl
@[simp] theorem State.hostRead_scrcOpen (r : Reg) : (s.hostRead r).scrcOpen = s.scrcOpen := rfl
@[simp] theorem State.hostRead_eb (r : Reg) : (s.hostRead r).eb = s.eb := rfl
@[simp] theorem State.hostRead_pend (r : Reg) : (s.hostRead r).pend = s.pend := rfl
@[simp] theorem State.hostRead_err (r : Reg) : (s.hostRead r).err = s.err := rfl
@[simp] theorem State.hostRead_errCode (r : Reg) : (s.hostRead r).errCode = s.errCode := rfl
@[simp] theorem State.hostRead_ecap (r : Reg) : (s.hostRead r).ecap = s.ecap := rfl
@[simp] theorem State.hostRead_regBase (r : Reg) : (s.hostRead r).regBase = s.regBase := rfl
@[simp] theorem State.hostRead_resetPin (r : Reg) : (s.hostRead r).resetPin = s.resetPin := rfl
@[simp] theorem State.hostRead_hostQueue (r : Reg) : (s.hostRead r).hostQueue = s.hostQueue := rfl
@[simp] theorem State.hostRead_turns (r : Reg) : (s.hostRead r).turns = s.turns := rfl
@[simp] theorem State.hostRead_readLog (r : Reg) : (s.hostRead r).readLog = s.readReg r :: s.readLog := rfl

/-! An access issued -/

@[simp] theorem State.dequeue_a : s.dequeue.a = s.a := rfl
@[simp] theorem State.dequeue_b : s.dequeue.b = s.b := rfl
@[simp] theorem State.dequeue_nLo : s.dequeue.nLo = s.nLo := rfl
@[simp] theorem State.dequeue_nHi : s.dequeue.nHi = s.nHi := rfl
@[simp] theorem State.dequeue_rLo : s.dequeue.rLo = s.rLo := rfl
@[simp] theorem State.dequeue_rHi : s.dequeue.rHi = s.rHi := rfl
@[simp] theorem State.dequeue_remAcc : s.dequeue.remAcc = s.remAcc := rfl
@[simp] theorem State.dequeue_remValid : s.dequeue.remValid = s.remValid := rfl
@[simp] theorem State.dequeue_size : s.dequeue.size = s.size := rfl
@[simp] theorem State.dequeue_scrcOpen : s.dequeue.scrcOpen = s.scrcOpen := rfl
@[simp] theorem State.dequeue_eb : s.dequeue.eb = s.eb := rfl
@[simp] theorem State.dequeue_pend : s.dequeue.pend = s.pend := rfl
@[simp] theorem State.dequeue_err : s.dequeue.err = s.err := rfl
@[simp] theorem State.dequeue_errCode : s.dequeue.errCode = s.errCode := rfl
@[simp] theorem State.dequeue_ecap : s.dequeue.ecap = s.ecap := rfl
@[simp] theorem State.dequeue_regBase : s.dequeue.regBase = s.regBase := rfl
@[simp] theorem State.dequeue_resetPin : s.dequeue.resetPin = s.resetPin := rfl
@[simp] theorem State.dequeue_hostQueue : s.dequeue.hostQueue = s.hostQueue.tail := rfl
@[simp] theorem State.dequeue_turns : s.dequeue.turns = s.turns := rfl
@[simp] theorem State.dequeue_readLog : s.dequeue.readLog = s.readLog := rfl

/-! The turn used up -/

@[simp] theorem popTurn_a : (popTurn s).a = s.a := rfl
@[simp] theorem popTurn_b : (popTurn s).b = s.b := rfl
@[simp] theorem popTurn_nLo : (popTurn s).nLo = s.nLo := rfl
@[simp] theorem popTurn_nHi : (popTurn s).nHi = s.nHi := rfl
@[simp] theorem popTurn_rLo : (popTurn s).rLo = s.rLo := rfl
@[simp] theorem popTurn_rHi : (popTurn s).rHi = s.rHi := rfl
@[simp] theorem popTurn_remAcc : (popTurn s).remAcc = s.remAcc := rfl
@[simp] theorem popTurn_remValid : (popTurn s).remValid = s.remValid := rfl
@[simp] theorem popTurn_size : (popTurn s).size = s.size := rfl
@[simp] theorem popTurn_scrcOpen : (popTurn s).scrcOpen = s.scrcOpen := rfl
@[simp] theorem popTurn_eb : (popTurn s).eb = s.eb := rfl
@[simp] theorem popTurn_pend : (popTurn s).pend = s.pend := rfl
@[simp] theorem popTurn_err : (popTurn s).err = s.err := rfl
@[simp] theorem popTurn_errCode : (popTurn s).errCode = s.errCode := rfl
@[simp] theorem popTurn_ecap : (popTurn s).ecap = s.ecap := rfl
@[simp] theorem popTurn_regBase : (popTurn s).regBase = s.regBase := rfl
@[simp] theorem popTurn_resetPin : (popTurn s).resetPin = s.resetPin := rfl
@[simp] theorem popTurn_hostQueue : (popTurn s).hostQueue = s.hostQueue := rfl
@[simp] theorem popTurn_turns : (popTurn s).turns = s.turns.tail := rfl
@[simp] theorem popTurn_readLog : (popTurn s).readLog = s.readLog := rfl

/-! A turn put first -/

@[simp] theorem pushTurn_a (t : Turn) : (pushTurn t s).a = s.a := rfl
@[simp] theorem pushTurn_b (t : Turn) : (pushTurn t s).b = s.b := rfl
@[simp] theorem pushTurn_nLo (t : Turn) : (pushTurn t s).nLo = s.nLo := rfl
@[simp] theorem pushTurn_nHi (t : Turn) : (pushTurn t s).nHi = s.nHi := rfl
@[simp] theorem pushTurn_rLo (t : Turn) : (pushTurn t s).rLo = s.rLo := rfl
@[simp] theorem pushTurn_rHi (t : Turn) : (pushTurn t s).rHi = s.rHi := rfl
@[simp] theorem pushTurn_remAcc (t : Turn) : (pushTurn t s).remAcc = s.remAcc := rfl
@[simp] theorem pushTurn_remValid (t : Turn) : (pushTurn t s).remValid = s.remValid := rfl
@[simp] theorem pushTurn_size (t : Turn) : (pushTurn t s).size = s.size := rfl
@[simp] theorem pushTurn_scrcOpen (t : Turn) : (pushTurn t s).scrcOpen = s.scrcOpen := rfl
@[simp] theorem pushTurn_eb (t : Turn) : (pushTurn t s).eb = s.eb := rfl
@[simp] theorem pushTurn_pend (t : Turn) : (pushTurn t s).pend = s.pend := rfl
@[simp] theorem pushTurn_err (t : Turn) : (pushTurn t s).err = s.err := rfl
@[simp] theorem pushTurn_errCode (t : Turn) : (pushTurn t s).errCode = s.errCode := rfl
@[simp] theorem pushTurn_ecap (t : Turn) : (pushTurn t s).ecap = s.ecap := rfl
@[simp] theorem pushTurn_regBase (t : Turn) : (pushTurn t s).regBase = s.regBase := rfl
@[simp] theorem pushTurn_resetPin (t : Turn) : (pushTurn t s).resetPin = s.resetPin := rfl
@[simp] theorem pushTurn_hostQueue (t : Turn) : (pushTurn t s).hostQueue = s.hostQueue := rfl
@[simp] theorem pushTurn_turns (t : Turn) : (pushTurn t s).turns = t :: s.turns := rfl
@[simp] theorem pushTurn_readLog (t : Turn) : (pushTurn t s).readLog = s.readLog := rfl

/-! An error recorded (60_exceptions.md R203): only ERR and ERRCODE can change -/

@[simp] theorem State.record_a (e : ErrorCode) : (s.record e).a = s.a := by
  unfold State.record; split <;> rfl
@[simp] theorem State.record_b (e : ErrorCode) : (s.record e).b = s.b := by
  unfold State.record; split <;> rfl
@[simp] theorem State.record_nLo (e : ErrorCode) : (s.record e).nLo = s.nLo := by
  unfold State.record; split <;> rfl
@[simp] theorem State.record_nHi (e : ErrorCode) : (s.record e).nHi = s.nHi := by
  unfold State.record; split <;> rfl
@[simp] theorem State.record_rLo (e : ErrorCode) : (s.record e).rLo = s.rLo := by
  unfold State.record; split <;> rfl
@[simp] theorem State.record_rHi (e : ErrorCode) : (s.record e).rHi = s.rHi := by
  unfold State.record; split <;> rfl
@[simp] theorem State.record_remAcc (e : ErrorCode) : (s.record e).remAcc = s.remAcc := by
  unfold State.record; split <;> rfl
@[simp] theorem State.record_remValid (e : ErrorCode) : (s.record e).remValid = s.remValid := by
  unfold State.record; split <;> rfl
@[simp] theorem State.record_size (e : ErrorCode) : (s.record e).size = s.size := by
  unfold State.record; split <;> rfl
@[simp] theorem State.record_scrcOpen (e : ErrorCode) : (s.record e).scrcOpen = s.scrcOpen := by
  unfold State.record; split <;> rfl
@[simp] theorem State.record_eb (e : ErrorCode) : (s.record e).eb = s.eb := by
  unfold State.record; split <;> rfl
@[simp] theorem State.record_pend (e : ErrorCode) : (s.record e).pend = s.pend := by
  unfold State.record; split <;> rfl
@[simp] theorem State.record_err (e : ErrorCode) : (s.record e).err = true := by
  unfold State.record; split <;> simp_all
@[simp] theorem State.record_errCode (e : ErrorCode) :
    (s.record e).errCode = if s.err then s.errCode else e.code := by
  unfold State.record; split <;> rfl
@[simp] theorem State.record_ecap (e : ErrorCode) : (s.record e).ecap = s.ecap := by
  unfold State.record; split <;> rfl
@[simp] theorem State.record_regBase (e : ErrorCode) : (s.record e).regBase = s.regBase := by
  unfold State.record; split <;> rfl
@[simp] theorem State.record_resetPin (e : ErrorCode) : (s.record e).resetPin = s.resetPin := by
  unfold State.record; split <;> rfl
@[simp] theorem State.record_hostQueue (e : ErrorCode) : (s.record e).hostQueue = s.hostQueue := by
  unfold State.record; split <;> rfl
@[simp] theorem State.record_turns (e : ErrorCode) : (s.record e).turns = s.turns := by
  unfold State.record; split <;> rfl
@[simp] theorem State.record_readLog (e : ErrorCode) : (s.record e).readLog = s.readLog := by
  unfold State.record; split <;> rfl

/-! An error raised (60_exceptions.md R204): the record, and the pending slot freed -/

@[simp] theorem State.raiseError_a (e : ErrorCode) : (s.raiseError e).a = s.a := by
  simp [State.raiseError]
@[simp] theorem State.raiseError_b (e : ErrorCode) : (s.raiseError e).b = s.b := by
  simp [State.raiseError]
@[simp] theorem State.raiseError_nLo (e : ErrorCode) : (s.raiseError e).nLo = s.nLo := by
  simp [State.raiseError]
@[simp] theorem State.raiseError_nHi (e : ErrorCode) : (s.raiseError e).nHi = s.nHi := by
  simp [State.raiseError]
@[simp] theorem State.raiseError_rLo (e : ErrorCode) : (s.raiseError e).rLo = s.rLo := by
  simp [State.raiseError]
@[simp] theorem State.raiseError_rHi (e : ErrorCode) : (s.raiseError e).rHi = s.rHi := by
  simp [State.raiseError]
@[simp] theorem State.raiseError_remAcc (e : ErrorCode) : (s.raiseError e).remAcc = s.remAcc := by
  simp [State.raiseError]
@[simp] theorem State.raiseError_remValid (e : ErrorCode) : (s.raiseError e).remValid = s.remValid := by
  simp [State.raiseError]
@[simp] theorem State.raiseError_size (e : ErrorCode) : (s.raiseError e).size = s.size := by
  simp [State.raiseError]
@[simp] theorem State.raiseError_scrcOpen (e : ErrorCode) : (s.raiseError e).scrcOpen = s.scrcOpen := by
  simp [State.raiseError]
@[simp] theorem State.raiseError_eb (e : ErrorCode) : (s.raiseError e).eb = s.eb := by
  simp [State.raiseError]
@[simp] theorem State.raiseError_pend (e : ErrorCode) : (s.raiseError e).pend = none := by
  simp [State.raiseError]
@[simp] theorem State.raiseError_err (e : ErrorCode) : (s.raiseError e).err = true := by
  simp [State.raiseError]
@[simp] theorem State.raiseError_errCode (e : ErrorCode) : (s.raiseError e).errCode = if s.err then s.errCode else e.code := by
  simp [State.raiseError]
@[simp] theorem State.raiseError_ecap (e : ErrorCode) : (s.raiseError e).ecap = s.ecap := by
  simp [State.raiseError]
@[simp] theorem State.raiseError_regBase (e : ErrorCode) : (s.raiseError e).regBase = s.regBase := by
  simp [State.raiseError]
@[simp] theorem State.raiseError_resetPin (e : ErrorCode) : (s.raiseError e).resetPin = s.resetPin := by
  simp [State.raiseError]
@[simp] theorem State.raiseError_hostQueue (e : ErrorCode) : (s.raiseError e).hostQueue = s.hostQueue := by
  simp [State.raiseError]
@[simp] theorem State.raiseError_turns (e : ErrorCode) : (s.raiseError e).turns = s.turns := by
  simp [State.raiseError]
@[simp] theorem State.raiseError_readLog (e : ErrorCode) : (s.raiseError e).readLog = s.readLog := by
  simp [State.raiseError]

/-- The error raised, as one record update. -/
theorem State.raiseError_eq (e : ErrorCode) :
    s.raiseError e = { s with err := true, errCode := if s.err then s.errCode else e.code, pend := none } := by
  simp only [State.raiseError, State.record, State.retire]; split <;> simp_all

/-! A word placed where the next step completes it -/

@[simp] theorem placeCommand_pend (w : Word) : (placeCommand s w).pend = some (s.snapshot w) := rfl
@[simp] theorem placeCommand_turns (w : Word) : (placeCommand s w).turns = .engine :: s.turns := rfl
@[simp] theorem placeCommand_nextTurn (w : Word) : nextTurn (placeCommand s w) = .engine := rfl

/-- What the next step completes after a word is placed: the command accepted, and the turns as they were. -/
@[simp] theorem popTurn_placeCommand (w : Word) : popTurn (placeCommand s w) = s.accept w := rfl

/-! The reset input (70_reset_and_hazards.md R230) -/

@[simp] theorem State.driveReset_ecap (b : Bool) : (s.driveReset b).ecap = s.ecap := by cases b <;> rfl
@[simp] theorem State.driveReset_regBase (b : Bool) : (s.driveReset b).regBase = s.regBase := by cases b <;> rfl
@[simp] theorem State.driveReset_resetPin (b : Bool) : (s.driveReset b).resetPin = b := by cases b <;> rfl
@[simp] theorem State.driveReset_hostQueue (b : Bool) : (s.driveReset b).hostQueue = s.hostQueue := by cases b <;> rfl
@[simp] theorem State.driveReset_turns (b : Bool) : (s.driveReset b).turns = s.turns := by cases b <;> rfl
@[simp] theorem State.driveReset_readLog (b : Bool) : (s.driveReset b).readLog = s.readLog := by cases b <;> rfl

/-- Asserting reset twice is asserting it once. -/
theorem State.driveReset_idem : (s.driveReset true).driveReset true = s.driveReset true := rfl

/-! The snapshot (44_control.md R181) -/

@[simp] theorem State.snapshot_cmd (w : Word) : (s.snapshot w).cmd = w := rfl
@[simp] theorem State.snapshot_a (w : Word) : (s.snapshot w).a = s.a := rfl
@[simp] theorem State.snapshot_b (w : Word) : (s.snapshot w).b = s.b := rfl
@[simp] theorem State.snapshot_n (w : Word) : (s.snapshot w).n = pair s.nHi s.nLo := rfl

end Sys2Proof.Machine
end

