-- ==== Sys2Proof/Laws/Ops.lean ====
section
/-! SUPPORT. What each shared operation can do, said once: completion of a command, its rule, the register window. -/

namespace Sys2Proof.Machine

/-- The rule of each command: what its completion does to PEND's operands and the engine's state. -/
def ruleOf : Instr → Pending → State → Except ErrorCode State
  | .clrErr        => clrErrRule
  | .remLoad       => remLoadRule
  | .remByte imm   => fun _ => remFeedRule [imm]
  | .remWord       => fun p => remFeedRule (be32 p.a)
  | .clMul         => clMulRule
  | .modMul        => modMulRule
  | .modExp        => modExpRule
  | .scrcBegin     => scrcBeginRule
  | .scrcEntry imm => scrcEntryRule imm
  | .scrcFinish    => fun _ => finishRule crcSparse
  | .sremFinish    => fun _ => finishRule combined

/-- Every meaning is the completion of its rule. -/
theorem exec_eq_complete (i : Instr) (s : State) : exec i s = s.complete (ruleOf i) := by cases i <;> rfl

variable {s t : State} {p : Pending} {rule : Pending → State → Except ErrorCode State}

theorem State.complete_none (h : s.pend = none) : s.complete rule = .fault .noPendingCommand := by
  simp [State.complete, h]

theorem State.complete_ok (hp : s.pend = some p) (hr : rule p s = .ok t) : s.complete rule = .next t.retire := by
  simp [State.complete, hp, hr]

theorem State.complete_error {e : ErrorCode} (hp : s.pend = some p) (hr : rule p s = .error e) :
    s.complete rule = .next (s.raiseError e) := by
  simp [State.complete, hp, hr]

/-- With a command pending, completion always answers a next state, of one of two kinds. -/
theorem State.complete_next (hp : s.pend = some p) :
    (∃ u, rule p s = .ok u ∧ s.complete rule = .next u.retire) ∨
      ∃ e, rule p s = .error e ∧ s.complete rule = .next (s.raiseError e) := by
  cases hr : rule p s with
  | ok u => exact .inl ⟨u, rfl, State.complete_ok hp hr⟩
  | error e => exact .inr ⟨e, rfl, State.complete_error hp hr⟩

/-- Inversion: a next state of a completion is the rule's result or the error's record, with the slot freed. -/
theorem State.complete_cases (h : s.complete rule = .next t) :
    ∃ p, s.pend = some p ∧
      ((∃ u, rule p s = .ok u ∧ t = u.retire) ∨ ∃ e, rule p s = .error e ∧ t = s.raiseError e) := by
  cases hp : s.pend with
  | none => simp [State.complete_none hp] at h
  | some p =>
    refine ⟨p, rfl, ?_⟩
    rcases State.complete_next (rule := rule) hp with ⟨u, hr, hc⟩ | ⟨e, hr, hc⟩
    · rw [hc] at h
      cases h
      exact .inl ⟨u, hr, rfl⟩
    · rw [hc] at h
      cases h
      exact .inr ⟨e, hr, rfl⟩

/-- With a command pending, every meaning answers a next state. -/
theorem exec_next (i : Instr) (hp : s.pend = some p) : ∃ t, exec i s = .next t := by
  rw [exec_eq_complete]
  rcases State.complete_next (rule := ruleOf i) hp with ⟨u, -, hc⟩ | ⟨e, -, hc⟩ <;> exact ⟨_, hc⟩

/-! ### The rules -/

theorem remFeedRule_ok {bytes : List Byte} (h : remFeedRule bytes s = .ok t) :
    s.remValid = true ∧ t = s.setRemAcc (bytes.foldl remstep8 s.remAcc) := by
  unfold remFeedRule at h
  split at h <;> simp_all

theorem finishRule_ok {result : Nat → EntryBuffer → Word} (h : finishRule result s = .ok t) :
    s.scrcOpen = true ∧ t = (s.setR32 (result s.size.toNat s.eb)).closeSession := by
  unfold finishRule at h
  split at h <;> simp_all

theorem scrcEntryRule_ok {imm : Byte} (h : scrcEntryRule imm p s = .ok t) :
    s.scrcOpen = true ∧ p.n < s.size ∧ (EntryBuffer.holds p.position s.eb = true ∨ s.ecount ≠ s.ecap) ∧
      t = s.putEntry p.position imm := by
  unfold scrcEntryRule at h
  split at h
  · simp at h
  split at h
  · simp at h
  split at h
  · simp at h
  rename_i h1 h2 h3
  simp only [Except.ok.injEq] at h
  refine ⟨by simpa using h1, BitVec.not_le.mp h2, ?_, h.symm⟩
  by_cases hh : EntryBuffer.holds p.position s.eb = true
  · exact .inl hh
  · exact .inr (fun hc => h3 ⟨by simpa using hh, hc⟩)

theorem remFeedRule_error {bytes : List Byte} {e : ErrorCode} (h : remFeedRule bytes s = .error e) :
    s.remValid = false ∧ e = .remShort := by
  unfold remFeedRule at h
  split at h <;> simp_all

theorem finishRule_error {result : Nat → EntryBuffer → Word} {e : ErrorCode} (h : finishRule result s = .error e) :
    s.scrcOpen = false ∧ e = .scrcClosed := by
  unfold finishRule at h
  split at h <;> simp_all

/-- Which rule raises an error, and in which states (60_exceptions.md R202). -/
theorem ruleOf_error {i : Instr} {e : ErrorCode} (h : ruleOf i p s = .error e) :
    ((∃ imm, i = .remByte imm) ∨ i = .remWord) ∧ s.remValid = false ∨
      (i = .scrcFinish ∨ i = .sremFinish) ∧ s.scrcOpen = false ∨ ∃ imm, i = .scrcEntry imm := by
  cases i with
  | remByte imm => exact .inl ⟨.inl ⟨imm, rfl⟩, (remFeedRule_error h).1⟩
  | remWord => exact .inl ⟨.inr rfl, (remFeedRule_error h).1⟩
  | scrcEntry imm => exact .inr (.inr ⟨imm, rfl⟩)
  | scrcFinish => exact .inr (.inl ⟨.inl rfl, (finishRule_error h).1⟩)
  | sremFinish => exact .inr (.inl ⟨.inr rfl, (finishRule_error h).1⟩)
  | clrErr | remLoad | clMul | modMul | modExp | scrcBegin => cases h

/-- What no rule touches: the operand registers, the parameters, the reset input, the host's side and the turns. -/
theorem ruleOf_frame {i : Instr} (h : ruleOf i p s = .ok t) :
    t.a = s.a ∧ t.b = s.b ∧ t.nLo = s.nLo ∧ t.nHi = s.nHi ∧ t.ecap = s.ecap ∧ t.regBase = s.regBase ∧
      t.resetPin = s.resetPin ∧ t.hostQueue = s.hostQueue ∧ t.turns = s.turns ∧ t.readLog = s.readLog := by
  cases i with
  | remByte imm => obtain ⟨-, rfl⟩ := remFeedRule_ok h; simp
  | remWord => obtain ⟨-, rfl⟩ := remFeedRule_ok h; simp
  | scrcEntry imm => obtain ⟨-, -, -, rfl⟩ := scrcEntryRule_ok h; simp
  | scrcFinish => obtain ⟨-, rfl⟩ := finishRule_ok h; simp
  | sremFinish => obtain ⟨-, rfl⟩ := finishRule_ok h; simp
  | clrErr | remLoad | clMul | modMul | modExp | scrcBegin => cases h; simp

/-! ### The register window (10_state.md R21) -/

/-- A register is found at its offset and nowhere else. -/
theorem regAt_eq_some {off : Nat} {r : Reg} : regAt off = some r ↔ off = regOffset r := by
  constructor
  · intro h
    have := List.find?_some h
    simpa using (beq_iff_eq.mp this).symm
  · rintro rfl
    cases r <;> rfl

/-- Every offset is a multiple of 4 below 0x40. -/
theorem regOffset_lt (r : Reg) : regOffset r < 0x40 ∧ regOffset r % 4 = 0 := by cases r <;> decide

/-- An offset of the window holds a register exactly when it is a multiple of 4. -/
theorem regAt_isSome_iff {off : Nat} (h : off < 0x40) : (regAt off).isSome ↔ off % 4 = 0 := by
  revert h off
  decide

end Sys2Proof.Machine
end

