-- ==== Sys2Proof/Laws/PerInstr.lean ====
section
/-! SUPPORT. Facts about every command as syntax, one lemma per constructor. The family TableRow: a command's word selects
the command's row of the opcode map (30_encoding.md R75). -/

namespace Sys2Proof.Laws.TableRow

/-- The word of the command selects its row, which is a row of the map. -/
def Statement (i : Instr) : Prop := i.row ∈ opcodeTable ∧ i.row.selects (encode i) = true

/-- A word with an operand byte selects a row that masks that byte out. -/
theorem selects_pack (mnemonic : String) (o imm : Byte) :
    (OpcodeRow.mk mnemonic (packFields ⟨o, 0, 0⟩) 0xFFFFFF00).selects (packFields ⟨o, 0, imm⟩) = true := by
  simp only [OpcodeRow.selects, beq_iff_eq]
  apply BitVec.eq_of_getLsbD_eq
  intro k hk
  simp only [packFields, BitVec.getLsbD_and, BitVec.getLsbD_append]
  interval_cases k <;> simp

theorem clrErr : Statement .clrErr := ⟨by decide, by decide⟩
theorem remLoad : Statement .remLoad := ⟨by decide, by decide⟩
theorem remByte (imm : Byte) : Statement (.remByte imm) := ⟨by simp [Instr.row, opcodeTable], selects_pack "REM_BYTE" 0x11 imm⟩
theorem remWord : Statement .remWord := ⟨by decide, by decide⟩
theorem clMul : Statement .clMul := ⟨by decide, by decide⟩
theorem modMul : Statement .modMul := ⟨by decide, by decide⟩
theorem modExp : Statement .modExp := ⟨by decide, by decide⟩
theorem scrcBegin : Statement .scrcBegin := ⟨by decide, by decide⟩
theorem scrcEntry (imm : Byte) : Statement (.scrcEntry imm) :=
  ⟨by simp [Instr.row, opcodeTable], selects_pack "SCRC_ENTRY" 0x31 imm⟩
theorem scrcFinish : Statement .scrcFinish := ⟨by decide, by decide⟩
theorem sremFinish : Statement .sremFinish := ⟨by decide, by decide⟩

end Sys2Proof.Laws.TableRow
end

