-- ==== Sys2Proof/Laws/Polynomial.lean ====
section
/-! SUPPORT. The polynomial reading of words: its coefficients, XOR as addition, the generator, and what one bit and one
byte of the remainder engine do to the polynomial. -/

namespace Sys2Proof.Reference

open Polynomial Sys2Proof.Machine

variable {w : Nat}

/-- A coefficient of a word is its bit. -/
theorem coeff_wordPoly (v : BitVec w) (k : Nat) : (wordPoly v).coeff k = if v.getLsbD k then 1 else 0 := by
  unfold wordPoly
  rw [finsetSum_coeff]
  by_cases hk : k < w
  · rw [Finset.sum_eq_single k]
    · split <;> simp
    · intro j _ hj
      split
      · rw [coeff_X_pow, if_neg (Ne.symm hj)]
      · rfl
    · intro h
      exact absurd (Finset.mem_range.mpr hk) h
  · rw [BitVec.getLsbD_of_ge v k (by omega), Finset.sum_eq_zero]
    · simp
    · intro j hj
      have := Finset.mem_range.mp hj
      split
      · rw [coeff_X_pow, if_neg (by omega)]
      · rfl

/-- Two words of one width with one polynomial are equal. -/
theorem wordPoly_injective {u v : BitVec w} (h : wordPoly u = wordPoly v) : u = v := by
  apply BitVec.eq_of_getLsbD_eq
  intro k _
  have := congrArg (fun P => P.coeff k) h
  simp only [coeff_wordPoly] at this
  cases hu : u.getLsbD k <;> cases hv : v.getLsbD k <;> simp_all

@[simp] theorem wordPoly_zero : wordPoly (0 : BitVec w) = 0 := by
  ext k
  simp [coeff_wordPoly]

/-- Addition of polynomials is XOR of the words (R7). -/
theorem wordPoly_xor (u v : BitVec w) : wordPoly (u ^^^ v) = wordPoly u + wordPoly v := by
  ext k
  rw [coeff_add, coeff_wordPoly, coeff_wordPoly, coeff_wordPoly, BitVec.getLsbD_xor]
  cases u.getLsbD k <;> cases v.getLsbD k <;> simp [show (1 : ZMod 2) + 1 = 0 from rfl]

/-- A word of width w has degree below w. -/
theorem degree_wordPoly_lt (v : BitVec w) : (wordPoly v).degree < w := by
  rw [degree_lt_iff_coeff_zero]
  intro k hk
  rw [coeff_wordPoly, BitVec.getLsbD_of_ge v k hk]
  simp

/-- G is monic of degree 32 (R9). -/
theorem gen_monic : gen.Monic := by
  unfold gen
  exact monic_X_pow_add (degree_wordPoly_lt _)

theorem degree_gen : gen.degree = 32 := by
  unfold gen
  rw [degree_add_eq_left_of_degree_lt]
  · simp
  · rw [degree_X_pow]
    exact degree_wordPoly_lt _

/-- A word is its own remainder: every u32 is a residue (00_scope.md R13). -/
theorem polyrem_wordPoly (v : Word) : polyrem (wordPoly v) = wordPoly v := by
  unfold polyrem
  rw [modByMonic_eq_self_iff gen_monic, degree_gen]
  exact degree_wordPoly_lt v

/-- Remainders add (R12). -/
theorem polyrem_add (P Q : (ZMod 2)[X]) : polyrem (P + Q) = polyrem P + polyrem Q := add_modByMonic P Q

/-- Multiples of G have remainder 0. -/
theorem polyrem_mul_gen (P : (ZMod 2)[X]) : polyrem (P * gen) = 0 := by
  unfold polyrem
  rw [modByMonic_eq_zero_iff_dvd gen_monic]
  exact dvd_mul_left gen P

/-- A remainder is congruent to what it is the remainder of. -/
theorem polyrem_eq_iff {P Q : (ZMod 2)[X]} : polyrem P = polyrem Q ↔ gen ∣ P - Q := by
  unfold polyrem
  rw [← sub_eq_zero, ← sub_modByMonic, modByMonic_eq_zero_iff_dvd gen_monic]

/-- Reducing a factor first does not change the remainder of a product. -/
theorem polyrem_mul_left (P Q : (ZMod 2)[X]) : polyrem (polyrem P * Q) = polyrem (P * Q) := by
  rw [polyrem_eq_iff, ← sub_mul]
  refine Dvd.dvd.mul_right ?_ Q
  rw [← polyrem_eq_iff]
  exact (polyrem_eq_iff.mpr (by
    unfold polyrem
    rw [modByMonic_eq_sub_mul_div P gen]
    exact ⟨-(P /ₘ gen), by ring⟩))

/-- The remainder is a fixed point. -/
theorem polyrem_polyrem (P : (ZMod 2)[X]) : polyrem (polyrem P) = polyrem P := by
  simpa using polyrem_mul_left P 1

/-- The polynomial of one bit. -/
theorem wordPoly_ofBool (b : Bool) : wordPoly ((BitVec.ofBool b).setWidth 32) = if b then 1 else 0 := by
  ext k
  rw [coeff_wordPoly, BitVec.getLsbD_setWidth, BitVec.getLsbD_ofBool]
  cases b <;> by_cases hk : k = 0 <;> simp [hk, coeff_one]

/-- One bit into the accumulator is one step of the remainder: multiply by x, add the bit, reduce. -/
theorem wordPoly_shiftIn (acc : Word) (bit : Bool) :
    wordPoly (shiftIn acc bit) = polyrem (wordPoly acc * X + if bit then 1 else 0) := by
  have hshift : wordPoly ((acc <<< 1) ||| (BitVec.ofBool bit).setWidth 32) =
      wordPoly acc * X + (if bit then 1 else 0) + if acc.getLsbD 31 then X ^ 32 else 0 := by
    ext k
    rw [coeff_add, coeff_add, coeff_wordPoly, BitVec.getLsbD_or, BitVec.getLsbD_shiftLeft, BitVec.getLsbD_setWidth,
      BitVec.getLsbD_ofBool]
    rcases k with _ | k
    · cases bit <;> cases acc.getLsbD 31 <;> simp [coeff_one, coeff_X_pow]
    · rw [coeff_mul_X, coeff_wordPoly]
      by_cases hk : k + 1 < 32
      · have hne : ¬ k + 1 = 32 := by omega
        cases bit <;> cases acc.getLsbD 31 <;> simp [coeff_one, coeff_X_pow, hk, hne]
      · by_cases hk' : k = 31
        · subst hk'
          cases bit <;> cases acc.getLsbD 31 <;> simp [coeff_one, coeff_X_pow, show (1 : ZMod 2) + 1 = 0 from rfl]
        · have hne : ¬ k + 1 = 32 := by omega
          rw [BitVec.getLsbD_of_ge acc k (by omega)]
          cases bit <;> cases acc.getLsbD 31 <;> simp [coeff_one, coeff_X_pow, hk, hne]
  have hred : ∀ v : Word, wordPoly v = polyrem (wordPoly v) := fun v => (polyrem_wordPoly v).symm
  rw [hred (shiftIn acc bit), polyrem_eq_iff]
  unfold shiftIn
  cases h : acc.getLsbD 31
  · rw [h] at hshift
    simp [hshift]
  · rw [h] at hshift
    simp only [if_true, wordPoly_xor, hshift]
    refine ⟨1, ?_⟩
    unfold gen glow
    ring

/-- Eight steps of multiplying by x and adding a term, from P and from 0. -/
theorem foldl_eight (c : Nat → (ZMod 2)[X]) (P : (ZMod 2)[X]) :
    [7, 6, 5, 4, 3, 2, 1, 0].foldl (fun P i => P * X + c i) P =
      P * X ^ 8 + [7, 6, 5, 4, 3, 2, 1, 0].foldl (fun P i => P * X + c i) 0 := by
  simp only [List.foldl_cons, List.foldl_nil]
  ring

/-- A byte, most significant bit first. -/
theorem wordPoly_byte (b : Byte) :
    wordPoly b = [7, 6, 5, 4, 3, 2, 1, 0].foldl (fun P i => P * X + if b.getLsbD i then 1 else 0) (0 : (ZMod 2)[X]) := by
  unfold wordPoly
  simp only [Finset.sum_range_succ, Finset.sum_range_zero, List.foldl_cons, List.foldl_nil]
  have key : ∀ (c : Bool) (n : Nat), (if c then (X : (ZMod 2)[X]) ^ n else 0) = (if c then 1 else 0) * X ^ n := by
    intro c n
    cases c <;> simp
  simp only [key]
  ring

/-- One byte into the accumulator (40_remainder.md R100): multiply by x^8, add the byte, reduce. -/
theorem wordPoly_remstep8 (acc : Word) (b : Byte) :
    wordPoly (remstep8 acc b) = polyrem (wordPoly acc * X ^ 8 + wordPoly b) := by
  have fold : ∀ (is : List Nat) (c : Word) (P : (ZMod 2)[X]), wordPoly c = polyrem P →
      wordPoly (is.foldl (fun acc i => shiftIn acc (b.getLsbD i)) c) =
        polyrem (is.foldl (fun P i => P * X + if b.getLsbD i then 1 else 0) P) := by
    intro is
    induction is with
    | nil => intro c P h; exact h
    | cons i is ih =>
      intro c P h
      refine ih _ _ ?_
      rw [wordPoly_shiftIn, h, polyrem_add, polyrem_add, polyrem_mul_left]
  unfold remstep8
  rw [fold _ acc (wordPoly acc) (polyrem_wordPoly acc).symm, wordPoly_byte b, foldl_eight]

end Sys2Proof.Reference
end

