-- ==== Sys2Proof/Laws/Step.lean ====
section
/-! SUPPORT. What a step can do, said once: one inversion lemma per agent. -/

namespace Sys2Proof.Machine

variable {s t : State}

/-! ### The host -/

/-- An admitted access: 32 bits wide, at the offset of a register, with reset released. -/
theorem hostAccess_reg {k : Reg → State} (hr : s.resetPin = false) (r : Reg) :
    hostAccess s .w32 (s.regBase + regOffset r) k = .next (k r) := by
  have hlt := (regOffset_lt r).1
  have hw : windowOffset s (s.regBase + regOffset r) = some (regOffset r) := by
    unfold windowOffset
    rw [if_pos ⟨by omega, by omega⟩, Nat.add_sub_cancel_left]
  simp [hostAccess, hr, hw, regAt_eq_some.mpr rfl]

/-- Inversion: an access that takes a step reaches a register. -/
theorem hostAccess_cases {w : AccessWidth} {addr : Nat} {k : Reg → State} (h : hostAccess s w addr k = .next t) :
    s.resetPin = false ∧ w = .w32 ∧ ∃ r, addr = s.regBase + regOffset r ∧ t = k r := by
  unfold hostAccess at h
  split at h
  · simp at h
  split at h
  · simp at h
  rename_i hr hw
  split at h
  · simp at h
  rename_i off ho
  split at h
  · simp at h
  rename_i r hreg
  unfold windowOffset at ho
  split at ho
  · rename_i hb
    have ho := Option.some.inj ho
    have hreg := regAt_eq_some.mp hreg
    refine ⟨by simpa using hr, by simpa using hw, r, by omega, ?_⟩
    cases h
    rfl
  · simp at ho

/-- Inversion: what a step of the host does. -/
theorem hostStep_cases (h : hostStep s = .next t) :
    (s.hostQueue = [] ∧ t = s) ∨
    (∃ r ops, s.resetPin = false ∧ s.hostQueue = .read .w32 (s.regBase + regOffset r) :: ops ∧ t = s.dequeue.hostRead r) ∨
    (∃ r v ops, s.resetPin = false ∧ s.hostQueue = .write .w32 (s.regBase + regOffset r) v :: ops ∧
      t = s.dequeue.writeReg r v) ∨
    (∃ ops, s.resetPin = false ∧ s.hostQueue = .wait :: ops ∧ t = s.dequeue.hostPoll .STATUS) := by
  unfold hostStep at h
  split at h
  · rename_i hq
    cases h
    exact .inl ⟨hq, rfl⟩
  · rename_i w addr ops hq
    obtain ⟨hr, rfl, r, rfl, rfl⟩ := hostAccess_cases h
    exact .inr (.inl ⟨r, ops, hr, hq, rfl⟩)
  · rename_i w addr v ops hq
    obtain ⟨hr, rfl, r, rfl, rfl⟩ := hostAccess_cases h
    exact .inr (.inr (.inl ⟨r, v, ops, hr, hq, rfl⟩))
  · rename_i ops hq
    obtain ⟨hr, -, r, hreg, rfl⟩ := hostAccess_cases h
    have : regOffset .STATUS = regOffset r := Nat.add_left_cancel hreg
    have : r = .STATUS := by
      have h1 := regAt_eq_some.mpr this
      have h2 : regAt (regOffset .STATUS) = some .STATUS := rfl
      exact Option.some.inj (h1.symm.trans h2)
    subst this
    exact .inr (.inr (.inr ⟨ops, hr, hq, rfl⟩))

/-- The access at the head of the queue takes a step exactly when it is well-formed and reset is released
(20_memory.md R50 to R52, 70_reset_and_hazards.md R230). -/
theorem hostStep_next_iff {op : HostOp} {ops : List HostOp} (hq : s.hostQueue = op :: ops) :
    (∃ t, hostStep s = .next t) ↔ s.resetPin = false ∧ op.wf s.regBase = true := by
  have key : ∀ (w : AccessWidth) (addr : Nat) (k : Reg → State),
      (∃ t, hostAccess s.dequeue w addr k = .next t) ↔
        s.resetPin = false ∧ (w.wf && inWindow s.regBase addr && wordAligned s.regBase addr) = true := by
    intro w addr k
    constructor
    · rintro ⟨t, ht⟩
      obtain ⟨hr, rfl, r, rfl, -⟩ := hostAccess_cases ht
      have ⟨h1, h2⟩ := regOffset_lt r
      refine ⟨hr, ?_⟩
      simp [AccessWidth.wf, inWindow, wordAligned, h1, h2]
    · rintro ⟨hr, hw⟩
      simp only [AccessWidth.wf, inWindow, wordAligned, Bool.and_eq_true, beq_iff_eq, decide_eq_true_eq] at hw
      obtain ⟨⟨rfl, hb1, hb2⟩, hal⟩ := hw
      obtain ⟨r, hreg⟩ := Option.isSome_iff_exists.mp ((regAt_isSome_iff (off := addr - s.regBase) (by omega)).mpr hal)
      have hoff := regAt_eq_some.mp hreg
      have haddr : addr = s.regBase + regOffset r := by omega
      exact ⟨k r, by rw [haddr]; exact hostAccess_reg (s := s.dequeue) hr r⟩
  cases op with
  | read w addr => simp only [hostStep, hq]; exact key w addr _
  | write w addr v => simp only [hostStep, hq]; exact key w addr _
  | wait =>
    simp only [hostStep, hq, HostOp.wf]
    rw [key .w32 _ _]
    simp [AccessWidth.wf, inWindow, wordAligned, regOffset]

variable {ops : List HostOp}

/-- A step that issues an access is the host's step. -/
theorem step_of_hostIssues {op : HostOp} (h : HostIssues s op ops) : step s = hostStep (popTurn s) := by
  simp [step, h.1, runTurn]

/-- The state in which an issued access takes effect. -/
theorem dequeue_popTurn {op : HostOp} (h : HostIssues s op ops) : (popTurn s).dequeue = issued s ops := by
  simp [State.dequeue, popTurn, issued, h.2.2]

/-- A write of a register of the window. -/
theorem step_hostWrite {r : Reg} {v : Word} (h : HostIssues s (.write .w32 (s.regBase + regOffset r) v) ops) :
    step s = .next ((issued s ops).writeReg r v) := by
  have hq : (popTurn s).hostQueue = .write .w32 (s.regBase + regOffset r) v :: ops := h.2.2
  rw [step_of_hostIssues h]
  simp only [hostStep, hq, dequeue_popTurn h]
  exact hostAccess_reg (s := issued s ops) h.2.1 r

/-- A read of a register of the window. -/
theorem step_hostRead {r : Reg} (h : HostIssues s (.read .w32 (s.regBase + regOffset r)) ops) :
    step s = .next ((issued s ops).hostRead r) := by
  have hq : (popTurn s).hostQueue = .read .w32 (s.regBase + regOffset r) :: ops := h.2.2
  rw [step_of_hostIssues h]
  simp only [hostStep, hq, dequeue_popTurn h]
  exact hostAccess_reg (s := issued s ops) h.2.1 r

/-- A turn of the polling loop. -/
theorem step_hostWait (h : HostIssues s .wait ops) : step s = .next ((issued s ops).hostPoll .STATUS) := by
  have hq : (popTurn s).hostQueue = .wait :: ops := h.2.2
  rw [step_of_hostIssues h]
  simp only [hostStep, hq, dequeue_popTurn h]
  exact hostAccess_reg (s := issued s ops) h.2.1 .STATUS

/-! ### The engine -/

/-- Inversion: what a step of the engine does. -/
theorem engineStep_cases (h : engineStep s = .next t) :
    (s.pend = none ∧ t = s) ∨
    (∃ p e, s.pend = some p ∧ decode p.cmd = .error e ∧ t = s.raiseError .illegal) ∨
    (∃ p i, s.pend = some p ∧ decode p.cmd = .ok i ∧ exec i s = .next t) := by
  unfold engineStep at h
  split at h
  · rename_i hp
    cases h
    exact .inl ⟨hp, rfl⟩
  · rename_i p hp
    split at h
    · rename_i e hd
      cases h
      exact .inr (.inl ⟨p, e, hp, hd, rfl⟩)
    · rename_i i hd
      exact .inr (.inr ⟨p, i, hp, hd, h⟩)

/-! ### One step -/

/-- Inversion: a step is a reset edge, a completion turn or a host turn. -/
theorem step_cases (h : step s = .next t) :
    (∃ b, nextTurn s = .resetPin b ∧ t = (popTurn s).driveReset b) ∨
    (nextTurn s = .engine ∧ engineStep (popTurn s) = .next t) ∨
    (nextTurn s = .host ∧ hostStep (popTurn s) = .next t) := by
  unfold step at h
  cases ht : nextTurn s with
  | resetPin b =>
    rw [ht] at h
    cases h
    exact .inl ⟨b, rfl, rfl⟩
  | engine => rw [ht] at h; exact .inr (.inl ⟨rfl, h⟩)
  | host => rw [ht] at h; exact .inr (.inr ⟨rfl, h⟩)

/-- A command word placed is the one the next step completes. -/
theorem step_withFetchWord (nbits w : Nat) :
    step (s.withFetchWord nbits w) = engineStep (s.accept (BitVec.ofNat 32 (w % 2 ^ nbits))) := rfl

end Sys2Proof.Machine
end

