-- ==== Sys2Proof/Machine/Assembly.lean ====
section
/-! DEFINITION. The host assembly of 30_encoding.md R79 and the pseudo-instructions of R80, as the host accesses they
expand to, for a window at `base`. The `wait` loop itself is the host's (`HostOp.wait`). -/

namespace Sys2Proof.Machine

/-- `wr REG, imm32` (R79). -/
def asmWr (base : Nat) (r : Reg) (v : Word) : List HostOp := [.write .w32 (base + regOffset r) v]

/-- `rd REG` (R79). -/
def asmRd (base : Nat) (r : Reg) : List HostOp := [.read .w32 (base + regOffset r)]

/-- `wait` (R80). -/
def asmWait : List HostOp := [.wait]

/-- `cmd M [imm8]` (R80). -/
def asmCmd (base : Nat) (i : Instr) : List HostOp := asmWr base .CMD (encode i)

/-- `do M [imm8]` (R80). -/
def asmDo (base : Nat) (i : Instr) : List HostOp := asmCmd base i ++ asmWait

/-- `wr64 N, imm64` (R80): the low half first. -/
def asmWr64N (base : Nat) (v : DWord) : List HostOp := asmWr base .N_LO (lo32 v) ++ asmWr base .N_HI (hi32 v)

/-- `rd64 R` (R80). -/
def asmRd64R (base : Nat) : List HostOp := asmRd base .R_LO ++ asmRd base .R_HI

/-- `rd64 SIZE` (R80). -/
def asmRd64Size (base : Nat) : List HostOp := asmRd base .SIZE_LO ++ asmRd base .SIZE_HI

end Sys2Proof.Machine
end

