-- ==== Sys2Proof/Tests/Slice0.lean ====
section
/-! SUPPORT. Tests on fixed values, each with an expected result of spec/95_test_vectors.md or of a rule, the smoke test of
WellFormed, and for every statement with hypotheses a concrete state that meets them. -/

namespace Sys2Proof.Tests

open Sys2Proof.Machine Sys2Proof.Reference

/-! ### Decoding: words written out from the encodings of 30_encoding.md R71 and R75 -/

theorem test_decode_clrErr : decode 0b00000001000000000000000000000000 = .ok .clrErr := by decide
theorem test_decode_remLoad : decode 0b00010000000000000000000000000000 = .ok .remLoad := by decide
theorem test_decode_remByte : decode 0b00010001000000000000000010011010 = .ok (.remByte 0x9A) := by decide
theorem test_decode_remWord : decode 0b00010010000000000000000000000000 = .ok .remWord := by decide
theorem test_decode_clMul : decode 0b00100000000000000000000000000000 = .ok .clMul := by decide
theorem test_decode_modMul : decode 0b00100001000000000000000000000000 = .ok .modMul := by decide
theorem test_decode_modExp : decode 0b00100010000000000000000000000000 = .ok .modExp := by decide
theorem test_decode_scrcBegin : decode 0b00110000000000000000000000000000 = .ok .scrcBegin := by decide
theorem test_decode_scrcEntry : decode 0b00110001000000000000000000110111 = .ok (.scrcEntry 0x37) := by decide
theorem test_decode_scrcFinish : decode 0b00110010000000000000000000000000 = .ok .scrcFinish := by decide
theorem test_decode_sremFinish : decode 0b00110011000000000000000000000000 = .ok .sremFinish := by decide

/-- 95_test_vectors.md 2.6: the all-zero word, reserved OPCs, RSVD ≠ 0, stray IMM8. -/
theorem test_decode_illegal :
    decode 0x00000000 = .error .reservedOpcode ∧ decode 0x13000000 = .error .reservedOpcode ∧
    decode 0xFF000000 = .error .reservedOpcode ∧ decode 0x11000100 = .error .reservedField ∧
    decode 0x31FF0000 = .error .reservedField ∧ decode 0x10000001 = .error .strayImmediate ∧
    decode 0x01000001 = .error .strayImmediate := by decide

theorem test_decodeTableWord : decodeTableWord 32 0x310000AB = some (.scrcEntry 0xAB) := by decide
theorem test_encode_operand : encode (.remByte 0x9A) = 0x1100009A := by decide

/-! ### WellFormed: each check refuses an ill-formed term -/

theorem test_wf_fields : (CmdFields.mk 0x31 0 0xFF).wf = true ∧ (CmdFields.mk 0x10 0 0).wf = true := by decide
theorem test_wf_rsvd_refused : (CmdFields.mk 0x11 1 0).rsvdClear = false ∧ (CmdFields.mk 0x11 1 0).wf = false := by decide
theorem test_wf_opcode_refused : (CmdFields.mk 0x13 0 0).opcListed = false ∧ (CmdFields.mk 0x13 0 0).wf = false := by decide
theorem test_wf_immediate_refused : (CmdFields.mk 0x10 0 1).immAllowed = false ∧ (CmdFields.mk 0x10 0 1).wf = false := by
  decide
theorem test_wf_access : HostOp.wf 0x1000 (.read .w32 0x103C) = true ∧ HostOp.wf 0x1000 .wait = true := by decide
theorem test_wf_width_refused : AccessWidth.wf .w8 = false ∧ HostOp.wf 0x1000 (.read .w8 0x1004) = false := by decide
theorem test_wf_window_refused : inWindow 0x1000 0x1040 = false ∧ HostOp.wf 0x1000 (.write .w32 0x1040 0) = false := by decide
theorem test_wf_alignment_refused : wordAligned 0x1000 0x1002 = false ∧ HostOp.wf 0x1000 (.read .w32 0x1002) = false := by
  decide

/-! ### Small states -/

/-- The reset state with N_ENTRIES = 2, the word `cmd` accepted with its operands, and the engine's turn. -/
def bench (cmd a b : Word) (n : DWord) : State :=
  { State.resetWith 2 0x1000 with pend := some ⟨cmd, a, b, n⟩, turns := [.engine] }

/-- The reset state with N_ENTRIES = 2 and one access for the host to issue. -/
def port (op : HostOp) : State := { State.resetWith 2 0x1000 with hostQueue := [op], turns := [.host] }

/-- An open session of a size with entries, and `cmd` accepted with N = n. -/
def inSession (size : DWord) (eb : EntryBuffer) (cmd : Word) (n : DWord) : State :=
  { bench cmd 0 0 n with size := size, eb := eb, scrcOpen := true }

/-- A remainder running with an accumulator, and `cmd` accepted with operand A. -/
def inRemainder (acc cmd a : Word) : State := { bench cmd a 0 0 with remAcc := acc, remValid := true }

/-- What the state after a step shows, if the step takes one. -/
def after {α : Type} (s : State) (f : State → α) : Option α :=
  match step s with
  | .next t => some (f t)
  | .fault _ | .refused _ => none

/-! ### The commands: 95_test_vectors.md sections 2.1 to 2.6 -/

theorem test_remLoad_folds :
    after (bench 0x10000000 0x80000000 0 0) (fun t => (t.remAcc, t.status)) = some (0x84C11DB7, 0x00000004) := by decide
theorem test_remLoad_restarts : after (inRemainder 0x823289A0 0x10000000 0x00000001) State.remAcc = some 0x00000001 := by
  decide
theorem test_remByte : after (inRemainder 0x12345678 0x1100009A 0) State.remAcc = some 0x71C59884 := by decide
theorem test_remByte_short :
    after (bench 0x11000000 0 0 0) (fun t => (t.remAcc, t.status)) = some (0, 0x00000302) := by decide
theorem test_remWord : after (inRemainder 0x12345678 0x12000000 0x9ABCDEF0) State.remAcc = some 0x823289A0 := by
  decide +kernel
theorem test_remWord_short : after (bench 0x12000000 0x12345678 0 0) State.status = some 0x00000302 := by decide
theorem test_clMul : after (bench 0x20000000 0x12345678 0x9ABCDEF0 0) State.r = some 0x08860E945CD25A80 := by
  decide +kernel
theorem test_clMul_largest : after (bench 0x20000000 0xFFFFFFFF 0xFFFFFFFF 0) State.r = some 0x5555555555555555 := by
  decide +kernel
theorem test_modMul : after (bench 0x21000000 0x12345678 0x9ABCDEF0 0) State.r = some 0x00000000143ADBAE := by
  decide +kernel
theorem test_modMul_reduces : after (bench 0x21000000 0x80000000 0x00000002 0) State.rLo = some 0x04C11DB7 := by
  decide +kernel
theorem test_modExp_zero_zero : after (bench 0x22000000 0 0 0) State.rLo = some 0x00000001 := by decide +kernel
set_option maxRecDepth 20000 in
theorem test_modExp_large : after (bench 0x22000000 0x12345678 0 0x100000000) State.rLo = some 0x12345678 := by
  decide +kernel
theorem test_scrcBegin :
    after { inRemainder 0x84C11DB7 0x30000000 0 with pend := some ⟨0x30000000, 0, 0, 0x10000000005⟩ }
      (fun t => (t.status, t.readReg .SIZE_LO, t.readReg .SIZE_HI)) = some (0x0000000C, 0x00000005, 0x00000100) := by decide
theorem test_scrcBegin_abandons : after (inSession 4 [(1, 0x02)] 0x30000000 10) (fun t => (t.size, t.eb)) = some (10, []) := by
  decide
theorem test_scrcEntry_overwrites :
    after (inSession 4 [(1, 0x02)] 0x31000007 1) (fun t => (t.eb, t.ecount)) = some ([(1, 0x07)], 1) := by decide
theorem test_scrcEntry_range_before_capacity :
    after (inSession 4 [(0, 1), (1, 1)] 0x31000001 4) (fun t => (t.status, t.ecount)) = some (0x0000050A, 2) := by decide
theorem test_scrcFinish_four_zeros :
    after (inSession 4 [] 0x32000000 0) (fun t => (t.r, t.status)) = some (0x000000002144DF1C, 0) := by decide +kernel
set_option maxRecDepth 20000 in
theorem test_scrcFinish_largest_size :
    after (inSession 0xFFFFFFFFFFFFFFFF [(0xFFFFFFFFFFFFFFFE, 0x5A)] 0x32000000 0) State.rLo = some 0x8BBEB8EA := by
  decide +kernel
theorem test_sremFinish_no_fold : after (inSession 4 [(0, 0x80)] 0x33000000 0) State.rLo = some 0x80000000 := by
  decide +kernel
theorem test_sremFinish_closed : after (bench 0x33000000 0 0 0) State.status = some 0x00000402 := by decide
theorem test_clrErr : after { bench 0x01000000 0 0 0 with err := true, errCode := 5 } State.status = some 0 := by decide
theorem test_illegal_word : after (bench 0x13000000 0 0 0) State.status = some 0x00000102 := by decide
theorem test_capacity : after (inSession 10 [(0, 0x01), (5, 0x03)] 0x31000004 7) State.status = some 0x0000060A := by decide

/-! ### The port: 95_test_vectors.md section 2.6 and program P5; 10_state.md R21 -/

theorem test_busy_drop :
    after { port (.write .w32 0x1000 0x20000000) with pend := some ⟨0x22000000, 2, 3, 32⟩ } State.status = some 0x00000203 := by
  decide
theorem test_accept_latches :
    after { port (.write .w32 0x1000 0x20000000) with a := 2, b := 3, nHi := 1 } State.pend =
      some (some ⟨0x20000000, 2, 3, 0x100000000⟩) := by decide
theorem test_read_ecap : after (port (.read .w32 0x1030)) State.readLog = some [2] := by decide
theorem test_write_n_hi : after (port (.write .w32 0x1014 7)) State.nHi = some 7 := by decide
theorem test_wait_loops :
    after { port .wait with pend := some ⟨0x22000000, 2, 3, 32⟩ } (fun t => (t.hostQueue, t.readLog)) =
      some ([.wait], [0x00000001]) := by decide
theorem test_asm_do : asmDo 0x1000 (.scrcEntry 0x02) = [.write .w32 0x1000 0x31000002, .wait] := by decide
theorem test_asm_wr64 :
    asmWr64N 0x1000 0x100000005 = [.write .w32 0x1010 0x00000005, .write .w32 0x1014 0x00000001] := by decide

/-- 95_test_vectors.md 2.5: the check value of "123456789" by the reference of 00_scope.md R17. -/
theorem test_crc32Ref : crc32Ref [0x31, 0x32, 0x33, 0x34, 0x35, 0x36, 0x37, 0x38, 0x39] = 0xCBF43926 := by
  decide +kernel

/-- The first step after reset runs a placed command: with no session open, SCRC_ENTRY records E_SCRC_CLOSED (R157). -/
theorem test_first_step_after_reset :
    step (State.reset.withFetchWord 32 0x31000001) = .next { State.reset with err := true, errCode := 4 } := by rfl

/-! ### Witnesses: a state that meets the hypotheses of each statement -/

/-- A session of size 4 holding one entry meets the invariant, with any command accepted. -/
theorem inSession_inv (cmd : Word) (n : DWord) : (inSession 4 [(1, 0x02)] cmd n).Inv where
  errCodeClear _ := rfl
  errCodeListed h := by simp [inSession, bench, State.resetWith] at h
  ebRising := (by decide : EntryBuffer.wf [(1, 0x02)])
  ebInSize := (by decide : ∀ e ∈ ([(1, 0x02)] : EntryBuffer), e.1 < (4 : DWord).toNat)
  ebClosed h := by simp [inSession] at h
  ebCapacity := (by decide : 1 ≤ (2 : Word).toNat)
  capPositive := (by decide : 1 ≤ (2 : Word).toNat)
  baseAligned := (by decide : 0x1000 % 64 = 0)
  resetHeld h := by simp [inSession, bench, State.resetWith] at h

theorem witness_DecodedWordIsTheWordOfItsCommand : decode 0x310000FF = .ok (.scrcEntry 0xFF) := by decide

theorem witness_WordSelectsTheRowItDecodesTo :
    ⟨"REM_BYTE", 0x11000000, 0xFFFFFF00⟩ ∈ opcodeTable ∧
      (OpcodeRow.mk "REM_BYTE" 0x11000000 0xFFFFFF00).selects 0x110000FF = true := by decide

theorem witness_StepRunsThePendingCommand :
    nextTurn (bench 0x1100009A 0 0 0) = .engine ∧ (bench 0x1100009A 0 0 0).pend = some ⟨0x1100009A, 0, 0, 0⟩ ∧
      decode 0x1100009A = .ok (.remByte 0x9A) := by decide

theorem witness_IllegalWordRecordsEIllegal :
    nextTurn (bench 0x11000100 0 0 0) = .engine ∧ (bench 0x11000100 0 0 0).pend = some ⟨0x11000100, 0, 0, 0⟩ ∧
      decode 0x11000100 = .error .reservedField := by decide

theorem witness_AcceptedCommandCompletes_turn :
    nextTurn (bench 0x22000000 2 0 32) = .engine ∧ (bench 0x22000000 2 0 32).pend = some ⟨0x22000000, 2, 0, 32⟩ := by decide

theorem witness_AcceptedCommandCompletes_no_turn_left :
    { bench 0x22000000 2 0 32 with turns := [] }.turns = [] ∧
      { bench 0x22000000 2 0 32 with turns := [] }.pend = some ⟨0x22000000, 2, 0, 32⟩ := by decide

theorem witness_NothingCompletesWithoutAPendingCommand :
    { State.resetWith 2 0x1000 with turns := [.engine] }.pend = none ∧
      nextTurn { State.resetWith 2 0x1000 with turns := [.engine] } = .engine := by decide

theorem witness_CmdWriteWhileIdleIsAccepted :
    HostIssues (port (.write .w32 (0x1000 + 0x00) 0x20000000)) (.write .w32 (0x1000 + 0x00) 0x20000000) [] ∧
      (port (.write .w32 (0x1000 + 0x00) 0x20000000)).pend = none := by decide

theorem witness_CmdWriteWhileBusyIsDropped :
    HostIssues { port (.write .w32 (0x1000 + 0x00) 0x20000000) with pend := some ⟨0x22000000, 2, 3, 32⟩ }
        (.write .w32 (0x1000 + 0x00) 0x20000000) [] ∧
      { port (.write .w32 (0x1000 + 0x00) 0x20000000) with pend := some ⟨0x22000000, 2, 3, 32⟩ }.pend =
        some ⟨0x22000000, 2, 3, 32⟩ := by decide

/-- One witness for each operand register, and the lowest and highest ignored offset. -/
theorem witness_HostWritesReachOnlyOperandRegisters :
    ∀ off ∈ [0x08, 0x0C, 0x10, 0x14, 0x04, 0x3C],
      HostIssues (port (.write .w32 (0x1000 + off) 7)) (.write .w32 (0x1000 + off) 7) [] := by decide

/-- The first, the STATUS and the last register of the window. -/
theorem witness_HostReadsReturnTheRegister :
    ∀ k ∈ [0, 1, 15], HostIssues (port (.read .w32 (0x1000 + 4 * k))) (.read .w32 (0x1000 + 4 * k)) [] := by decide

theorem witness_NarrowOrMisalignedAccessIsRefused_width :
    ∀ w ∈ [AccessWidth.w8, .w16, .w64], w ≠ .w32 ∧ HostIssues (port (.read w (0x1000 + 4))) (.read w (0x1000 + 4)) [] := by
  decide

theorem witness_NarrowOrMisalignedAccessIsRefused_alignment :
    ∀ off ∈ [0x01, 0x3F], off < 0x40 ∧ off % 4 ≠ 0 ∧
      HostIssues (port (.write .w32 (0x1000 + off) 7)) (.write .w32 (0x1000 + off) 7) [] := by decide

theorem witness_AccessOutsideTheWindowFaults :
    ∀ addr ∈ [0x0FFF, 0x1040], (addr < 0x1000 ∨ 0x1000 + 0x40 ≤ addr) ∧
      HostIssues (port (.read .w32 addr)) (.read .w32 addr) [] := by decide

theorem witness_AccessDuringResetIsRefused :
    nextTurn { port .wait with resetPin := true } = .host ∧ { port .wait with resetPin := true }.resetPin = true ∧
      { port .wait with resetPin := true }.hostQueue = [.wait] := by decide

/-- A narrow read, an unaligned write and an access outside the window. -/
theorem witness_AccessDuringResetIsRefused_any :
    ∀ op ∈ [HostOp.read .w8 0x1000, .write .w32 0x1002 1, .read .w32 0x2000],
      nextTurn { port op with resetPin := true } = .host ∧ { port op with resetPin := true }.hostQueue = [op] := by decide

theorem witness_WaitPollsStatusUntilIdle : HostIssues (port .wait) .wait [] := by decide

theorem witness_HostStepsLeaveResultsAlone :
    nextTurn (port (.read .w32 0x1018)) = .host ∧ (after (port (.read .w32 0x1018)) State.readLog).isSome = true := by decide

/-- One witness for each operand register. -/
theorem witness_OperandWritesCommuteWithCompletion :
    ∀ r ∈ [Reg.A, .B, .N_LO, .N_HI],
      { bench 0x20000000 2 3 0 with hostQueue := [.write .w32 (0x1000 + regOffset r) 9] }.pend = some ⟨0x20000000, 2, 3, 0⟩ ∧
      { bench 0x20000000 2 3 0 with hostQueue := [.write .w32 (0x1000 + regOffset r) 9] }.resetPin = false ∧
      { bench 0x20000000 2 3 0 with hostQueue := [.write .w32 (0x1000 + regOffset r) 9] }.hostQueue =
        .write .w32 (0x1000 + regOffset r) 9 :: [] := by decide

theorem witness_AssertingResetClearsTheBlock :
    nextTurn { inSession 4 [(1, 0x02)] 0x32000000 0 with turns := [.resetPin true] } = .resetPin true := by decide

theorem witness_FirstErrorIsKeptUntilCleared_record :
    State.reset.err = false ∧ { State.reset with err := true }.err = true := ⟨rfl, rfl⟩

/-- The record kept (a failing REM_BYTE), cleared by CLRERR, and cleared by reset. -/
theorem witness_FirstErrorIsKeptUntilCleared :
    ∀ s ∈ [{ bench 0x11000000 0 0 0 with err := true, errCode := 4 }, { bench 0x01000000 0 0 0 with err := true, errCode := 4 },
        { bench 0 0 0 0 with err := true, errCode := 4, turns := [.resetPin true] }],
      s.err = true ∧ (after s State.err).isSome = true := by decide

theorem witness_ErrorsAreAllOrNothing :
    (bench 0x33000000 0 0 0).err = false ∧
      exec .sremFinish (bench 0x33000000 0 0 0) =
        .next { bench 0x33000000 0 0 0 with err := true, errCode := 4, pend := none } := ⟨rfl, rfl⟩

/-- One witness for each error a command raises. -/
theorem witness_EachCommandRaisesOnlyItsErrors :
    after (bench 0x12000000 0 0 0) State.errCode = some 3 ∧ after (bench 0x32000000 0 0 0) State.errCode = some 4 ∧
    after (inSession 4 [] 0x31000001 4) State.errCode = some 5 ∧
    after (inSession 10 [(0, 0x01), (5, 0x03)] 0x31000004 9) State.errCode = some 6 := by decide

/-- A state with a command pending, for the completion of CLRERR, REM_LOAD, CLMUL, MODMUL, MODEXP and SCRC_BEGIN. -/
theorem witness_command_pending : (bench 0x20000000 2 3 5).pend = some ⟨0x20000000, 2, 3, 5⟩ := by decide

/-- For RemByteTakesOneByte, RemWordTakesFourBytes and RemainderStreamComputesRemEngine. -/
theorem witness_remainder_running :
    (inRemainder 0x12345678 0x1100009A 0).pend = some ⟨0x1100009A, 0, 0, 0⟩ ∧
      (inRemainder 0x12345678 0x1100009A 0).remValid = true ∧
      remEngineBytes [0x12, 0x34, 0x56, 0x78] = some (inRemainder 0x12345678 0x1100009A 0).remAcc := by decide

/-- For RemFeedBeforeLoadRaisesRemShort and FinishWithoutSessionRaisesScrcClosed. -/
theorem witness_nothing_started :
    (bench 0x11000000 0 0 0).pend = some ⟨0x11000000, 0, 0, 0⟩ ∧ (bench 0x11000000 0 0 0).remValid = false ∧
      (bench 0x11000000 0 0 0).scrcOpen = false := by decide

theorem witness_RemEngineClosedForm : 3 ≤ ([0, 0, 0] : List Byte).length := by decide

theorem witness_ClmulLaws : 31 < 32 ∧ (0x80000000 : Word) ≠ 0 := by decide

theorem witness_RingExponentLaws : 0 % (2 ^ 32 - 1) = (2 ^ 32 - 1) % (2 ^ 32 - 1) := by decide

/-- A new position with room, at the last position of the session. -/
theorem witness_ScrcEntryStoresTheByte_new :
    (inSession 4 [(1, 0x02)] 0x31000007 3).Inv ∧
      (inSession 4 [(1, 0x02)] 0x31000007 3).pend = some ⟨0x31000007, 0, 0, 3⟩ ∧
      (inSession 4 [(1, 0x02)] 0x31000007 3).scrcOpen = true ∧ (3 : DWord).toNat < (4 : DWord).toNat ∧
      (inSession 4 [(1, 0x02)] 0x31000007 3).readReg .ECOUNT ≠ (inSession 4 [(1, 0x02)] 0x31000007 3).readReg .ECAP :=
  ⟨inSession_inv _ _, rfl, rfl, by decide, by decide⟩

/-- A position held already. -/
theorem witness_ScrcEntryStoresTheByte_held :
    (inSession 4 [(1, 0x02)] 0x31000007 1).Inv ∧
      (inSession 4 [(1, 0x02)] 0x31000007 1).pend = some ⟨0x31000007, 0, 0, 1⟩ ∧
      (inSession 4 [(1, 0x02)] 0x31000007 1).scrcOpen = true ∧ (1 : DWord).toNat < (4 : DWord).toNat ∧
      EntryBuffer.lookup (1 : DWord).toNat (inSession 4 [(1, 0x02)] 0x31000007 1).eb ≠ none :=
  ⟨inSession_inv _ _, rfl, rfl, by decide, by decide⟩

/-- No session; the first position out of range; a full buffer at the last position in range. -/
theorem witness_ScrcEntryRaisesItsFirstError :
    (bench 0x31000001 0 0 0).scrcOpen = false ∧
    ((inSession 4 [] 0x31000001 4).scrcOpen = true ∧ (inSession 4 [] 0x31000001 4).size.toNat ≤ (4 : DWord).toNat) ∧
    (inSession 10 [(0, 1), (5, 3)] 0x31000004 9).scrcOpen = true ∧
      (9 : DWord).toNat < (inSession 10 [(0, 1), (5, 3)] 0x31000004 9).size.toNat ∧
      EntryBuffer.lookup (9 : DWord).toNat (inSession 10 [(0, 1), (5, 3)] 0x31000004 9).eb = none ∧
      (inSession 10 [(0, 1), (5, 3)] 0x31000004 9).readReg .ECOUNT =
        (inSession 10 [(0, 1), (5, 3)] 0x31000004 9).readReg .ECAP := by decide

/-- For ScrcFinishWritesTheCrc32 and SremFinishWritesTheRemainder. -/
theorem witness_finish :
    (inSession 4 [(1, 0x02)] 0x32000000 0).Inv ∧ (inSession 4 [(1, 0x02)] 0x32000000 0).pend = some ⟨0x32000000, 0, 0, 0⟩ ∧
      (inSession 4 [(1, 0x02)] 0x32000000 0).scrcOpen = true := ⟨inSession_inv _ _, rfl, rfl⟩

/-- For CombinedIsTheRemainderOfTheBuffer, CrcSparseIsTheReferenceCrc and ZeroEntriesCountButDoNotShow: a map below its
size and a position it does not hold. -/
theorem witness_map :
    EntryBuffer.wf [(0, 0x01), (4, 0x37)] ∧ (∀ e ∈ ([(0, 0x01), (4, 0x37)] : EntryBuffer), e.1 < 8) ∧ 7 < 8 ∧
      EntryBuffer.lookup 7 [(0, 0x01), (4, 0x37)] = none := by decide

theorem witness_SremFinishIsLinear :
    (inSession 8 [] 0x33000000 0).pend = some ⟨0x33000000, 0, 0, 0⟩ ∧ (inSession 8 [] 0x33000000 0).scrcOpen = true ∧
      EntryBuffer.wf [(0, 0x01)] ∧ EntryBuffer.wf [(4, 0x37)] ∧
      ∀ e ∈ ([(0, 0x01)] : EntryBuffer), ∀ e' ∈ ([(4, 0x37)] : EntryBuffer), e.1 ≠ e'.1 := by decide

theorem witness_EntryOrderCannotShow :
    ([(0, 0x01), (4, 0x37)] : EntryBuffer).Perm [(4, 0x37), (0, 0x01)] ∧ (workingCopy []).Perm (workingCopy []) ∧
      EntryBuffer.wf [] ∧ (0 : Nat) ≠ 4 := ⟨List.Perm.swap _ _ _, List.Perm.refl _, List.Pairwise.nil, by decide⟩

theorem witness_SessionComputesTheChecksum :
    (∀ e ∈ ([(1, 0x07), (1, 0x02)] : List (DWord × Byte)), e.1.toNat < (4 : DWord).toNat) ∧
      (([(1, 0x07), (1, 0x02)] : List (DWord × Byte)).map (·.1)).dedup.length ≤ (State.resetWith 2 0x1000).ecap.toNat := by
  simp [State.resetWith]

/-- For StepKeepsTheInvariant and ParametersNeverChange. -/
theorem witness_StepKeepsTheInvariant :
    (inSession 4 [(1, 0x02)] 0x31000007 3).Inv ∧ (after (inSession 4 [(1, 0x02)] 0x31000007 3) State.eb).isSome = true :=
  ⟨inSession_inv _ _, by decide⟩

/-- For ResultRegisterPolicy, on each remainder command and on one that raises an error. -/
theorem witness_ResultRegisterPolicy_remainder :
    (∃ t, exec .remLoad (bench 0x10000000 1 0 0) = .next t) ∧
    (∃ t, exec (.remByte 0xFF) { bench 0x110000FF 0 0 0 with remValid := true } = .next t) ∧
    (∃ t, exec .remWord { bench 0x12000000 1 0 0 with remValid := true } = .next t) ∧
    (bench 0x12000000 1 0 0).remValid = false ∧ (bench 0x12000000 1 0 0).err = false ∧
    after (bench 0x12000000 1 0 0) State.err = some true :=
  ⟨⟨_, rfl⟩, ⟨_, rfl⟩, ⟨_, rfl⟩, rfl, rfl, by decide⟩

/-- For ResultRegisterPolicy, on a finishing command with no session and on an illegal word. -/
theorem witness_ResultRegisterPolicy_errors :
    (bench 0x32000000 0 0 0).scrcOpen = false ∧ (∃ t, exec .scrcFinish (bench 0x32000000 0 0 0) = .next t) ∧
    nextTurn (bench 0 0 0 0) = .engine ∧ (bench 0 0 0 0).pend = some ⟨0, 0, 0, 0⟩ ∧
    decode 0 = .error .reservedOpcode :=
  ⟨rfl, ⟨_, rfl⟩, rfl, rfl, by decide⟩

/-- For CommandsUseOnlyTheirSnapshot and ResultRegisterPolicy, on each command that writes R. -/
theorem witness_ResultRegisterPolicy :
    exec .clMul (bench 0x20000000 2 3 0) = .next { bench 0x20000000 2 3 0 with rLo := 6, pend := none } ∧
    (∃ t, exec .modMul (bench 0x21000000 2 3 0) = .next t) ∧ (∃ t, exec .modExp (bench 0x22000000 2 3 0) = .next t) ∧
    (∃ t, exec .scrcFinish (inSession 4 [] 0x32000000 0) = .next t) ∧
    (∃ t, exec .sremFinish (inSession 4 [] 0x33000000 0) = .next t) :=
  ⟨rfl, ⟨_, rfl⟩, ⟨_, rfl⟩, ⟨_, rfl⟩, ⟨_, rfl⟩⟩

theorem witness_FamiliesDoNotDisturbEachOther :
    sessionCommand .scrcBegin = true ∧ (∃ t, exec .scrcBegin (bench 0x30000000 0 0 4) = .next t) ∧
    sessionCommand .remLoad = false ∧ ∃ t, exec .remLoad (bench 0x10000000 1 0 0) = .next t :=
  ⟨rfl, ⟨_, rfl⟩, rfl, ⟨_, rfl⟩⟩

/-- One step for each change of a flag that the rule lists. -/
theorem witness_StatusFlagsChangeOnlyAsListed :
    after (port (.write .w32 (0x1000 + 0x00) 0)) State.busy = some true ∧ after (bench 0 0 0 0) State.busy = some false ∧
    after { bench 0x20000000 2 3 0 with hostQueue := [.write .w32 (0x1000 + 0x00) 0], turns := [.host] } State.err =
      some true ∧
    after (bench 0 0 0 0) State.err = some true ∧ after (bench 0x11000000 0 0 0) State.err = some true ∧
    after (bench 0x33000000 0 0 0) State.err = some true ∧ after (inSession 4 [] 0x31000001 4) State.errCode = some 5 ∧
    after { bench 0x01000000 0 0 0 with err := true, errCode := 5 } State.err = some false ∧
    after (bench 0x10000000 0 0 0) State.remValid = some true ∧
    after { inRemainder 0 0 0 with turns := [.resetPin true] } State.remValid = some false ∧
    after (bench 0x30000000 0 0 4) State.scrcOpen = some true ∧
    after (inSession 4 [] 0x33000000 0) State.scrcOpen = some false := by decide +kernel

end Sys2Proof.Tests
end

/-! ### The operand registers of a state that holds a command (00_scope.md R15) -/

namespace Sys2Proof.Machine

/-- The state with other values in the operand registers A, B and N. -/
def State.withOperands (s : State) (a b nLo nHi : Word) : State := { s with a := a, b := b, nLo := nLo, nHi := nHi }

section
variable (s : State) (a b nLo nHi : Word)

/-- No rule reads the live operand registers: with other values there, it gives the same result around them. -/
theorem ruleOf_withOperands (i : Instr) (p : Pending) :
    ruleOf i p (s.withOperands a b nLo nHi) = (ruleOf i p s).map (·.withOperands a b nLo nHi) := by
  cases i with
  | remByte | remWord => simp only [ruleOf, remFeedRule, apply_ite (Except.map _)]; rfl
  | scrcEntry imm => simp only [ruleOf, scrcEntryRule, apply_ite (Except.map _)]; rfl
  | scrcFinish | sremFinish => simp only [ruleOf, finishRule, apply_ite (Except.map _)]; rfl
  | clrErr | remLoad | clMul | modMul | modExp | scrcBegin => rfl

theorem State.raiseError_withOperands (e : ErrorCode) :
    (s.withOperands a b nLo nHi).raiseError e = (s.raiseError e).withOperands a b nLo nHi := by
  simp only [State.raiseError_eq, State.withOperands]

end

/-- The completion of a command around other values of the operand registers. -/
theorem exec_withOperands {i : Instr} {s t : State} (h : exec i s = .next t) (a b nLo nHi : Word) :
    exec i (s.withOperands a b nLo nHi) = .next (t.withOperands a b nLo nHi) := by
  rw [exec_eq_complete] at h ⊢
  obtain ⟨p, hp, ⟨u, hr, rfl⟩ | ⟨e, hr, rfl⟩⟩ := State.complete_cases h
  · exact State.complete_ok (t := u.withOperands a b nLo nHi) hp (by rw [ruleOf_withOperands, hr]; rfl)
  · rw [← State.raiseError_withOperands]
    exact State.complete_error hp (by rw [ruleOf_withOperands, hr]; rfl)

/-- What no completion touches: the operand registers, the parameters, the reset input, the host's side and the turns. -/
theorem exec_frame {i : Instr} {s t : State} (h : exec i s = .next t) :
    t.a = s.a ∧ t.b = s.b ∧ t.nLo = s.nLo ∧ t.nHi = s.nHi ∧ t.ecap = s.ecap ∧ t.regBase = s.regBase ∧
      t.resetPin = s.resetPin ∧ t.hostQueue = s.hostQueue ∧ t.turns = s.turns ∧ t.readLog = s.readLog := by
  rw [exec_eq_complete] at h
  obtain ⟨p, -, ⟨u, hr, rfl⟩ | ⟨e, -, rfl⟩⟩ := State.complete_cases h
  · simpa using ruleOf_frame hr
  · simp

/-- Settles O56: the frame of a completion, and that its rule reads the snapshot only. -/
theorem commandsUseOnlyTheirSnapshot : Obligations.CommandsUseOnlyTheirSnapshot := by
  intro i s t h
  obtain ⟨ha, hb, hlo, hhi, -, -, hpin, hq, hts, hlog⟩ := exec_frame h
  exact ⟨ha, hb, hlo, hhi, hpin, hq, hts, hlog, exec_withOperands h⟩

end Sys2Proof.Machine

/-! ### The entry buffer as a map: what a list of entries leaves in it (43_sparse_crc.md R157, R161, R166) -/

namespace Sys2Proof.Machine

open Sys2Proof.Reference

variable {m : EntryBuffer}

theorem putAll_concat (es : List Host.Cell) (e : Host.Cell) :
    putAll (es ++ [e]) m = EntryBuffer.put e.1 e.2 (putAll es m) := by
  simp [putAll]

/-- A buffer stays in canonical form, whatever is written. -/
theorem EntryBuffer.wf_putAll (h : EntryBuffer.wf m) (es : List Host.Cell) : EntryBuffer.wf (putAll es m) := by
  induction es generalizing m with
  | nil => exact h
  | cons e es ih => exact ih (EntryBuffer.wf_put h)

theorem EntryBuffer.wf_putAll_nil (es : List Host.Cell) : EntryBuffer.wf (putAll es []) :=
  EntryBuffer.wf_putAll List.Pairwise.nil es

/-- The last writer of a position wins (R161); a position never written keeps its byte. -/
theorem EntryBuffer.lookup_putAll (h : EntryBuffer.wf m) (es : List Host.Cell) (q : Nat) :
    EntryBuffer.lookup q (putAll es m) =
      ((es.reverse.find? (fun e => e.1 == q)).map (·.2)).or (EntryBuffer.lookup q m) := by
  induction es using List.reverseRecOn with
  | nil => rfl
  | append_singleton es e ih =>
    rw [putAll_concat, EntryBuffer.lookup_put (EntryBuffer.wf_putAll h es), List.reverse_concat, List.find?_cons, ih]
    by_cases hq : q = e.1
    · simp [hq]
    · simp [hq, beq_false_of_ne (Ne.symm hq)]

/-- Entries at distinct positions are added in any order (R166). -/
theorem EntryBuffer.put_comm (h : EntryBuffer.wf m) {p q : Nat} (hpq : p ≠ q) (v u : Byte) :
    EntryBuffer.put p v (EntryBuffer.put q u m) = EntryBuffer.put q u (EntryBuffer.put p v m) := by
  refine EntryBuffer.ext_of_mem (EntryBuffer.wf_put (EntryBuffer.wf_put h)) (EntryBuffer.wf_put (EntryBuffer.wf_put h)) ?_
  intro e
  simp only [EntryBuffer.mem_put (EntryBuffer.wf_put h), EntryBuffer.mem_put h]
  constructor <;> rintro (rfl | ⟨rfl | ⟨hm, h1⟩, h2⟩) <;> simp_all [Ne.symm]

/-- The order of summation cannot show (R166): XOR is commutative. -/
theorem combined_perm (L : Nat) {m m' : EntryBuffer} (h : m.Perm m') : combined L m' = combined L m := by
  refine (h.foldl_eq' ?_ 0).symm
  intro x _ y _ r
  rw [BitVec.xor_assoc, BitVec.xor_comm (contrib _ _ _), ← BitVec.xor_assoc]

/-! ### The materialized buffer byte by byte (00_scope.md R16) -/

theorem materialize_concat (L : Nat) (es : List Host.Cell) (e : Host.Cell) :
    materialize L (es ++ [e]) = (materialize L es).set e.1 e.2 := by
  simp [materialize]

/-- The byte at a position of a buffer, 0 where nothing is held. -/
def EntryBuffer.byteAt (m : EntryBuffer) (q : Nat) : Byte := (EntryBuffer.lookup q m).getD 0

@[simp] theorem EntryBuffer.byteAt_nil : EntryBuffer.byteAt [] = Function.const Nat 0 := rfl

theorem EntryBuffer.byteAt_put (h : EntryBuffer.wf m) (p q : Nat) (v : Byte) :
    (EntryBuffer.put p v m).byteAt q = if q = p then v else EntryBuffer.byteAt m q := by
  rw [EntryBuffer.byteAt, EntryBuffer.lookup_put h]
  split <;> rfl

/-- Any entries materialize as the bytes of the buffer they leave. -/
theorem materialize_eq_map_putAll (L : Nat) (es : List Host.Cell) :
    materialize L es = (List.range L).map (putAll es []).byteAt := by
  induction es using List.reverseRecOn with
  | nil => simp [materialize, putAll]
  | append_singleton es e ih =>
    rw [materialize_concat, putAll_concat, ih]
    refine List.ext_getElem (by simp) fun q _ _ => ?_
    have hbyte := EntryBuffer.byteAt_put (EntryBuffer.wf_putAll_nil es) e.1 q e.2
    simp [List.getElem_set, hbyte, eq_comm]

@[simp] theorem length_materialize (L : Nat) (es : List Host.Cell) : (materialize L es).length = L := by
  simp [materialize_eq_map_putAll]

/-- A position above all others is added at the end. -/
theorem EntryBuffer.put_of_forall_lt {p : Nat} (v : Byte) (h : ∀ e ∈ m, e.1 < p) :
    EntryBuffer.put p v m = m ++ [(p, v)] := by
  induction m with
  | nil => rfl
  | cons x xs ih =>
    have hx : x.1 < p := h x (by simp)
    rw [EntryBuffer.put, if_neg (by omega), if_neg (by omega), ih fun e he => h e (by simp [he])]
    rfl

/-- The entries of a canonical buffer, written in their order, give it back. -/
theorem putAll_of_wf (h : EntryBuffer.wf m) : putAll m [] = m := by
  induction m using List.reverseRecOn with
  | nil => rfl
  | append_singleton es e ih =>
    obtain ⟨hes, -, hlt⟩ := List.pairwise_append.mp h
    rw [putAll_concat, ih hes, EntryBuffer.put_of_forall_lt e.2 fun x hx => hlt x hx e (by simp)]

/-- A canonical buffer materializes as its bytes. -/
theorem materialize_eq_map (h : EntryBuffer.wf m) (L : Nat) :
    materialize L m = (List.range L).map (EntryBuffer.byteAt m) := by
  rw [materialize_eq_map_putAll, putAll_of_wf h]

/-- The buffer that entries leave materializes as they do. -/
theorem materialize_putAll (L : Nat) (es : List Host.Cell) : materialize L (putAll es []) = materialize L es := by
  rw [materialize_eq_map (EntryBuffer.wf_putAll_nil es), materialize_eq_map_putAll]

/-- Settles O48: canonical form, the last writer and the bytes, each by induction on the entries. -/
theorem bufferKeepsTheLastWriter : Obligations.BufferKeepsTheLastWriter := by
  intro es
  refine ⟨EntryBuffer.wf_putAll_nil es, fun q => ?_, fun L => materialize_putAll L es⟩
  rw [EntryBuffer.lookup_putAll List.Pairwise.nil, EntryBuffer.lookup, Option.or_none]

/-- Settles O51: sums over a permutation of the entries, and writes at distinct positions. -/
theorem entryOrderCannotShow : Obligations.EntryOrderCannotShow := by
  refine ⟨fun L m m' h => combined_perm L h, fun L m w h => ?_, fun m p q v u h hpq => EntryBuffer.put_comm h hpq v u⟩
  rw [crcSparse, combined_perm (L + 4) h]

end Sys2Proof.Machine

/-! ### Words and bytes as polynomials (00_scope.md R7, R8) -/

namespace Sys2Proof.Reference

open Polynomial Sys2Proof.Machine

variable {w n : Nat}

/-- The zero word, as `simp` spells it. -/
@[simp] theorem wordPoly_ofNat_zero : wordPoly (0#w) = 0 := wordPoly_zero

/-- Two words side by side: the high one is worth `x^n` more. -/
theorem wordPoly_append (hi : BitVec w) (lo : BitVec n) : wordPoly (hi ++ lo) = wordPoly hi * X ^ n + wordPoly lo := by
  ext k
  rw [coeff_add, coeff_mul_X_pow', coeff_wordPoly, coeff_wordPoly, coeff_wordPoly, BitVec.getLsbD_append]
  by_cases hk : k < n
  · simp [hk, Nat.not_le.mpr hk]
  · simp [hk, Nat.not_lt.mp hk]

/-- Zeros above a word add nothing. -/
theorem wordPoly_setWidth (v : BitVec w) (h : w ≤ n) : wordPoly (v.setWidth n) = wordPoly v := by
  ext k
  rw [coeff_wordPoly, coeff_wordPoly, BitVec.getLsbD_setWidth]
  by_cases hk : k < n
  · simp [hk]
  · simp [hk, BitVec.getLsbD_of_ge v k (by omega)]

/-- A shift left that drops no bit multiplies by x. -/
theorem wordPoly_shiftLeft_one (v : BitVec w) (h : v.getLsbD (w - 1) = false) : wordPoly (v <<< 1) = wordPoly v * X := by
  ext k
  rw [coeff_wordPoly, BitVec.getLsbD_shiftLeft]
  cases k with
  | zero => simp
  | succ k =>
    rw [coeff_mul_X, coeff_wordPoly]
    by_cases hk : k + 1 < w
    · simp [hk]
    · have hbit : v.getLsbD k = false := by
        rcases Nat.lt_or_ge k w with hkw | hkw
        · rwa [show k = w - 1 by omega]
        · exact BitVec.getLsbD_of_ge v k hkw
      simp [hk, hbit]

/-- A word is its shift right times x, and its lowest bit. -/
theorem wordPoly_shiftRight_one (v : BitVec w) :
    wordPoly v = wordPoly (v >>> 1) * X + if v.getLsbD 0 then 1 else 0 := by
  ext k
  rw [coeff_add, coeff_wordPoly]
  cases k with
  | zero => cases v.getLsbD 0 <;> simp
  | succ k =>
    rw [coeff_mul_X, coeff_wordPoly, BitVec.getLsbD_ushiftRight, Nat.add_comm 1 k]
    cases v.getLsbD 0 <;> simp [coeff_one]

/-- Bytes in sequence: those before the last n are worth `x^(8n)` more (R8). -/
theorem bytesPoly_append (as bs : List Byte) :
    bytesPoly (as ++ bs) = bytesPoly as * X ^ (8 * bs.length) + bytesPoly bs := by
  induction as with
  | nil => simp [bytesPoly]
  | cons a as ih =>
    simp only [List.cons_append, bytesPoly, ih, List.length_append]
    ring

theorem bytesPoly_concat (bs : List Byte) (b : Byte) : bytesPoly (bs ++ [b]) = bytesPoly bs * X ^ 8 + wordPoly b := by
  simp [bytesPoly_append, bytesPoly]

/-- Four bytes and the word they make are one polynomial. -/
theorem wordPoly_wordOfBytes (b0 b1 b2 b3 : Byte) : wordPoly (wordOfBytes b0 b1 b2 b3) = bytesPoly [b0, b1, b2, b3] := by
  simp only [wordOfBytes, wordPoly_append, bytesPoly, List.length_cons, List.length_nil]
  ring

/-- Four bytes cut out of a word, most significant first, make the word. -/
theorem wordOfBytes_extractLsb' (v : Word) :
    wordOfBytes (v.extractLsb' 24 8) (v.extractLsb' 16 8) (v.extractLsb' 8 8) (v.extractLsb' 0 8) = v := by
  rw [wordOfBytes, BitVec.extractLsb'_append_extractLsb'_eq_extractLsb' (by rfl),
    BitVec.extractLsb'_append_extractLsb'_eq_extractLsb' (by rfl),
    BitVec.extractLsb'_append_extractLsb'_eq_extractLsb' (by rfl)]
  exact BitVec.extractLsb'_eq_self

theorem bytesPoly_be32 (v : Word) : bytesPoly (be32 v) = wordPoly v := by
  rw [be32, ← wordPoly_wordOfBytes, wordOfBytes_extractLsb']

/-- The two halves of a 64-bit value make it. -/
theorem hi32_append_lo32 (v : DWord) : hi32 v ++ lo32 v = v := by
  rw [hi32, lo32, BitVec.extractLsb'_append_extractLsb'_eq_extractLsb' (by rfl)]
  exact BitVec.extractLsb'_eq_self

/-! ### The engine's procedures (40_remainder.md, 41_clmul.md, 42_modular.md) -/

/-- Bytes fed to a running remainder (R100): each multiplies by x^8 and adds itself. -/
theorem wordPoly_foldl_remstep8 (bs : List Byte) (acc : Word) :
    wordPoly (bs.foldl remstep8 acc) = polyrem (wordPoly acc * X ^ (8 * bs.length) + bytesPoly bs) := by
  induction bs generalizing acc with
  | nil => simp [bytesPoly, polyrem_wordPoly]
  | cons b bs ih =>
    rw [List.foldl_cons, ih, wordPoly_remstep8, polyrem_add, polyrem_mul_left, ← polyrem_add]
    simp only [bytesPoly, List.length_cons]
    ring_nf

/-- Where the leading bit is 0 nothing folds, and the engine computes the mathematical remainder (R102). -/
theorem wordPoly_remEngine {first : Word} (h : first.getLsbD 31 = false) (rest : List Byte) :
    wordPoly (remEngine first rest) = polyrem (wordPoly first * X ^ (8 * rest.length) + bytesPoly rest) := by
  rw [remEngine, remload, h, wordPoly_foldl_remstep8]
  simp

/-- The loop of R120 adds the product of the multiplier and the copy, while the multiplier has no bit above the
iterations left and the copy has that many bits free at its top. -/
theorem wordPoly_clmulLoop (fuel : Nat) (aa : Word) (bb r : DWord) (hf : fuel ≤ 64)
    (ha : ∀ k, fuel ≤ k → aa.getLsbD k = false) (hb : ∀ k, 64 - fuel ≤ k → bb.getLsbD k = false) :
    wordPoly (clmulLoop fuel aa bb r) = wordPoly r + wordPoly aa * wordPoly bb := by
  induction fuel generalizing aa bb r with
  | zero =>
    have haa : aa = 0 := BitVec.eq_of_getLsbD_eq fun k _ => by simp [ha k (Nat.zero_le k)]
    rw [clmulLoop, haa, wordPoly_zero, zero_mul, add_zero]
  | succ fuel ih =>
    rw [clmulLoop]
    split_ifs with h0 hbit
    · rw [h0, wordPoly_zero, zero_mul, add_zero]
    all_goals
      rw [ih _ _ _ (by omega) (fun k hk => by simp [ha (1 + k) (by omega)])
        (fun k hk => by rw [BitVec.getLsbD_shiftLeft, hb (k - 1) (by omega), Bool.and_false]),
        wordPoly_shiftLeft_one bb (hb 63 (by omega)), wordPoly_shiftRight_one aa]
      simp only [hbit, wordPoly_xor, Bool.false_eq_true, if_true, if_false]
      ring

/-- `clmul` is the product of polynomials (R120). -/
theorem wordPoly_clmul (a b : Word) : wordPoly (clmul a b) = wordPoly a * wordPoly b := by
  rw [clmul, wordPoly_clmulLoop 32 a _ 0 (by omega) (fun k hk => BitVec.getLsbD_of_ge a k hk), wordPoly_zero, zero_add,
    wordPoly_setWidth b (by omega)]
  intro k hk
  rw [BitVec.getLsbD_setWidth, BitVec.getLsbD_of_ge b k hk, Bool.and_false]

/-- The product of two words has degree at most 62 (R121). -/
theorem clmul_getLsbD_63 (a b : Word) : (clmul a b).getLsbD 63 = false := by
  have hdeg : ∀ v : Word, (wordPoly v).natDegree ≤ 31 := fun v =>
    natDegree_le_iff_coeff_eq_zero.mpr fun k hk => by
      rw [coeff_wordPoly, BitVec.getLsbD_of_ge v k hk]; simp
  have hcoeff : (wordPoly (clmul a b)).coeff 63 = 0 := by
    rw [wordPoly_clmul]
    exact coeff_eq_zero_of_natDegree_lt (lt_of_le_of_lt (natDegree_mul_le_of_le (hdeg a) (hdeg b)) (by omega))
  simpa [coeff_wordPoly] using hcoeff

/-- `modmul` is the ring product (R131). -/
theorem wordPoly_modmul (a b : Word) : wordPoly (modmul a b) = polyrem (wordPoly a * wordPoly b) := by
  have hhi : (hi32 (clmul a b)).getLsbD 31 = false := by
    simpa [hi32] using clmul_getLsbD_63 a b
  rw [modmul, wordPoly_remEngine hhi, bytesPoly_be32, ← wordPoly_clmul]
  conv_rhs => rw [← hi32_append_lo32 (clmul a b), wordPoly_append]
  rfl

/-- Reducing a factor first does not change the remainder of a product. -/
theorem polyrem_mul_right (P Q : (ZMod 2)[X]) : polyrem (P * polyrem Q) = polyrem (P * Q) := by
  rw [mul_comm, polyrem_mul_left, mul_comm]

/-- Reducing a base first does not change the remainder of a power. -/
theorem polyrem_pow (P : (ZMod 2)[X]) (e : Nat) : polyrem (polyrem P ^ e) = polyrem (P ^ e) := by
  induction e with
  | zero => rfl
  | succ e ih => rw [pow_succ, polyrem_mul_right, ← polyrem_mul_left, ih, polyrem_mul_left, ← pow_succ]

/-- The loop of R132 multiplies the accumulator by the power of the base, when its iterations cover the exponent. -/
theorem wordPoly_modexpLoop (fuel : Nat) (acc pw : Word) (e : Nat) (he : e < 2 ^ fuel) :
    wordPoly (modexpLoop fuel acc pw e) = polyrem (wordPoly acc * wordPoly pw ^ e) := by
  induction fuel generalizing acc pw e with
  | zero =>
    obtain rfl : e = 0 := by omega
    simp [modexpLoop, polyrem_wordPoly]
  | succ fuel ih =>
    rw [modexpLoop]
    split_ifs with h0 hodd
    · simp [h0, polyrem_wordPoly]
    all_goals
      rw [ih _ _ _ (by omega), wordPoly_modmul pw, ← polyrem_mul_right, polyrem_pow, polyrem_mul_right,
        ← pow_two, ← pow_mul]
    · rw [wordPoly_modmul, polyrem_mul_left, mul_assoc, ← pow_succ', show 2 * (e / 2) + 1 = e by omega]
    · rw [show 2 * (e / 2) = e by omega]

/-- A leading window that begins with a zero byte is its own remainder. -/
theorem wordPoly_remEngine_zero_byte (b1 b2 b3 : Byte) :
    wordPoly (remEngine (wordOfBytes 0 b1 b2 b3) []) = bytesPoly [0, b1, b2, b3] := by
  have hbit : (wordOfBytes 0 b1 b2 b3).getLsbD 31 = false := by
    simp only [wordOfBytes, BitVec.getLsbD_append]
    simp
  rw [wordPoly_remEngine hbit, List.length_nil, Nat.mul_zero, pow_zero, mul_one, bytesPoly, add_zero, polyrem_wordPoly,
    wordPoly_wordOfBytes]

@[simp] theorem wordPoly_byte_one : wordPoly (1 : Byte) = 1 := by
  simp [wordPoly]

/-- The residue of a byte is the byte (R150). -/
theorem wordPoly_baseResidue (v : Byte) : wordPoly (baseResidue v) = wordPoly v := by
  rw [baseResidue, wordPoly_remEngine_zero_byte]
  simp only [bytesPoly, wordPoly_zero, List.length_nil]
  ring

theorem wordPoly_ringOne : wordPoly ringOne = 1 := (wordPoly_baseResidue 1).trans wordPoly_byte_one

/-- `X8` is the residue of x^8 (R150). -/
theorem wordPoly_x8 : wordPoly x8 = X ^ 8 := by
  rw [x8, wordPoly_remEngine_zero_byte]
  simp only [bytesPoly, wordPoly_zero, wordPoly_byte_one, List.length_cons, List.length_nil]
  ring

/-- `modexp` is the ring power (R133). -/
theorem wordPoly_modexp (base : Word) (e : Nat) : wordPoly (modexp base e) = polyrem (wordPoly base ^ e) := by
  rw [modexp, wordPoly_modexpLoop _ _ _ _ Nat.lt_log2_self, wordPoly_ringOne, one_mul]

/-! ### The sparse remainder (43_sparse_crc.md R151 to R153) -/

/-- A contribution is the remainder of its byte at its position (R151). -/
theorem wordPoly_contrib (L p : Nat) (v : Byte) :
    wordPoly (contrib L p v) = polyrem (wordPoly v * X ^ (8 * (L - 1 - p))) := by
  rw [contrib, wordPoly_modmul, wordPoly_baseResidue, wordPoly_modexp, polyrem_mul_right, wordPoly_x8, pow_mul]

/-- The bytes `f 0, ..., f (L - 1)` as one sum. -/
theorem bytesPoly_map_range (L : Nat) (f : Nat → Byte) :
    bytesPoly ((List.range L).map f) = ∑ q ∈ Finset.range L, wordPoly (f q) * X ^ (8 * (L - 1 - q)) := by
  induction L with
  | zero => rfl
  | succ L ih =>
    rw [List.range_succ, List.map_append, List.map_singleton, bytesPoly_concat, ih, Finset.sum_range_succ, Finset.sum_mul]
    have hshift : ∀ q ∈ Finset.range L, wordPoly (f q) * X ^ (8 * (L - 1 - q)) * X ^ 8 =
        wordPoly (f q) * X ^ (8 * (L + 1 - 1 - q)) := fun q hq => by
      have := Finset.mem_range.mp hq
      rw [mul_assoc, ← pow_add]
      congr 2
      omega
    rw [Finset.sum_congr rfl hshift, Nat.add_sub_cancel, Nat.sub_self, Nat.mul_zero, pow_zero, mul_one]

/-- The last entry of a canonical buffer and those before it share no position. -/
theorem wordPoly_byteAt_concat {e : Host.Cell} {m : EntryBuffer} (h : EntryBuffer.wf (m ++ [e])) (q : Nat) :
    wordPoly (EntryBuffer.byteAt (m ++ [e]) q) =
      wordPoly (EntryBuffer.byteAt m q) + if q = e.1 then wordPoly e.2 else 0 := by
  obtain ⟨hm, -, hlt⟩ := List.pairwise_append.mp h
  have hlt : ∀ x ∈ m, x.1 < e.1 := fun x hx => hlt x hx e (by simp)
  rw [← EntryBuffer.put_of_forall_lt e.2 hlt, EntryBuffer.byteAt_put hm]
  by_cases hq : q = e.1
  · have hnone : EntryBuffer.lookup q m = none :=
      EntryBuffer.lookup_eq_none_iff.mpr fun x hx => by have := hlt x hx; omega
    rw [if_pos hq, if_pos hq, EntryBuffer.byteAt, hnone, Option.getD_none, wordPoly_zero, zero_add]
  · rw [if_neg hq, if_neg hq, add_zero]

theorem combined_concat (L : Nat) (m : EntryBuffer) (e : Host.Cell) :
    combined L (m ++ [e]) = combined L m ^^^ contrib L e.1 e.2 := by
  simp [combined]

/-- `combined` is the remainder of the buffer's bytes (R152, R153). -/
theorem wordPoly_combined_eq_sum {L : Nat} {m : EntryBuffer} (h : EntryBuffer.wf m) (hlt : ∀ e ∈ m, e.1 < L) :
    wordPoly (combined L m) =
      polyrem (∑ q ∈ Finset.range L, wordPoly (EntryBuffer.byteAt m q) * X ^ (8 * (L - 1 - q))) := by
  induction m using List.reverseRecOn with
  | nil => simp [combined, polyrem]
  | append_singleton m e ih =>
    have hm : EntryBuffer.wf m := (List.pairwise_append.mp h).1
    have he : e.1 ∈ Finset.range L := Finset.mem_range.mpr (hlt e (by simp))
    rw [combined_concat, wordPoly_xor, ih hm fun x hx => hlt x (by simp [hx]), wordPoly_contrib, ← polyrem_add]
    simp only [wordPoly_byteAt_concat h, add_mul, Finset.sum_add_distrib, ite_mul, zero_mul, Finset.sum_ite_eq', he,
      if_true]

theorem wordPoly_combined {L : Nat} {m : EntryBuffer} (h : EntryBuffer.wf m) (hlt : ∀ e ∈ m, e.1 < L) :
    wordPoly (combined L m) = polyrem (bytesPoly (materialize L m)) := by
  rw [materialize_eq_map h, bytesPoly_map_range, wordPoly_combined_eq_sum h hlt]

end Sys2Proof.Reference

/-! ### The byte-serial CRC-32 as a remainder (00_scope.md R17, 43_sparse_crc.md R155) -/

namespace Sys2Proof.Reference

open Polynomial Sys2Proof.Machine

theorem reflect32_xor (u v : Word) : reflect32 (u ^^^ v) = reflect32 u ^^^ reflect32 v := by
  ext k hk
  simp [reflect32, BitVec.getElem_reverse, BitVec.getMsbD_xor]

theorem reflect32_reflect32 (v : Word) : reflect32 (reflect32 v) = v := BitVec.reverse_reverse_eq

theorem reflect32_shiftRight_one (v : Word) : reflect32 (v >>> 1) = reflect32 v <<< 1 := by
  ext k hk
  simp only [reflect32, BitVec.getElem_reverse, BitVec.getMsbD_ushiftRight, BitVec.getElem_shiftLeft]
  by_cases h0 : k < 1
  · simp [h0]
  · simp [h0, hk]

/-- One bit of the CRC register is one shift of the accumulator, seen in reflection. -/
theorem reflect32_crcBit (c : Word) : reflect32 (crcBit c) = shiftIn (reflect32 c) false := by
  have hgen : reflect32 0xEDB88320 = glow := by decide +kernel
  have hbit : (reflect32 c).getLsbD 31 = c.getLsbD 0 := by
    rw [reflect32, BitVec.getLsbD_reverse, BitVec.getMsbD_eq_getLsbD]; rfl
  have hzero : (BitVec.ofBool false).setWidth 32 = 0#32 := rfl
  simp only [crcBit, shiftIn, hbit, hzero, apply_ite reflect32, reflect32_xor, reflect32_shiftRight_one, hgen,
    BitVec.or_zero]

theorem wordPoly_reflect32_repeat_crcBit (n : Nat) (c : Word) :
    wordPoly (reflect32 (Nat.repeat crcBit n c)) = polyrem (wordPoly (reflect32 c) * X ^ n) := by
  induction n with
  | zero => simp [Nat.repeat, polyrem_wordPoly]
  | succ n ih =>
    rw [Nat.repeat, reflect32_crcBit, wordPoly_shiftIn, ih]
    simp [polyrem_mul_left, pow_succ, mul_assoc]

/-- A byte enters the register at its low end: in reflection, at the top. -/
theorem wordPoly_reflect32_byte (b : Byte) : wordPoly (reflect32 (b.setWidth 32)) = wordPoly (reflect8 b) * X ^ 24 := by
  have htop : reflect32 (b.setWidth 32) = reflect8 b ++ (0 : BitVec 24) := by
    ext k hk
    rw [reflect32, BitVec.getElem_reverse, BitVec.getMsbD_setWidth, BitVec.getElem_append, reflect8]
    split
    · simp; omega
    · have hle : 24 ≤ k := by omega
      simp [BitVec.getElem_reverse, hle]
  rw [htop, wordPoly_append, wordPoly_zero, add_zero]

/-- One byte of the CRC-32: the register and the byte, reflected, shifted and reduced. -/
theorem wordPoly_reflect32_crcByte (c : Word) (b : Byte) :
    wordPoly (reflect32 (crcByte c b)) = polyrem (wordPoly (reflect32 c) * X ^ 8 + wordPoly (reflect8 b) * X ^ 32) := by
  rw [crcByte, wordPoly_reflect32_repeat_crcBit, reflect32_xor, wordPoly_xor, wordPoly_reflect32_byte]
  ring_nf

theorem wordPoly_reflect32_foldl_crcByte (D : List Byte) (c : Word) :
    wordPoly (reflect32 (D.foldl crcByte c)) =
      polyrem (wordPoly (reflect32 c) * X ^ (8 * D.length) + bytesPoly (D.map reflect8) * X ^ 32) := by
  induction D generalizing c with
  | nil => simp [bytesPoly, polyrem_wordPoly]
  | cons b D ih =>
    rw [List.foldl_cons, ih, wordPoly_reflect32_crcByte, polyrem_add, polyrem_mul_left, ← polyrem_add]
    simp only [List.map_cons, bytesPoly, List.length_cons, List.length_map]
    ring_nf

/-! ### The working copy (43_sparse_crc.md R154) -/

variable {m : EntryBuffer}

theorem wf_reflectEntries (h : EntryBuffer.wf m) : EntryBuffer.wf (reflectEntries m) :=
  List.Pairwise.map _ (fun _ _ => id) h

theorem byteAt_reflectEntries (m : EntryBuffer) (q : Nat) :
    EntryBuffer.byteAt (reflectEntries m) q = reflect8 (EntryBuffer.byteAt m q) := by
  induction m with
  | nil => exact (by decide : (0 : Byte) = reflect8 0)
  | cons e m ih =>
    rw [EntryBuffer.byteAt, EntryBuffer.byteAt, reflectEntries, List.map_cons, EntryBuffer.lookup_cons,
      EntryBuffer.lookup_cons]
    split
    · rfl
    · exact ih

/-- Both cases of step 2 of R154 write the byte held, or 0, with its bits inverted. -/
theorem perturbAt_eq_put (m : EntryBuffer) (p : Nat) :
    perturbAt m p = EntryBuffer.put p (EntryBuffer.byteAt m p ^^^ 0xFF) m := by
  rw [perturbAt, EntryBuffer.byteAt]
  cases EntryBuffer.lookup p m <;> rfl

theorem wf_perturbAt (h : EntryBuffer.wf m) (p : Nat) : EntryBuffer.wf (perturbAt m p) := by
  rw [perturbAt_eq_put]
  exact EntryBuffer.wf_put h

theorem wf_foldl_perturbAt (h : EntryBuffer.wf m) (ps : List Nat) : EntryBuffer.wf (ps.foldl perturbAt m) := by
  induction ps generalizing m with
  | nil => exact h
  | cons p ps ih => exact ih (wf_perturbAt h p)

/-- Inverting the bytes at some positions holds no position but these and those held before. -/
theorem mem_foldl_perturbAt (h : EntryBuffer.wf m) (ps : List Nat) {e : Host.Cell} (he : e ∈ ps.foldl perturbAt m) :
    e.1 ∈ ps ∨ e ∈ m := by
  induction ps generalizing m with
  | nil => exact .inr he
  | cons p ps ih =>
    rcases ih (wf_perturbAt h p) he with hps | hm
    · exact .inl (List.mem_cons_of_mem p hps)
    · rw [perturbAt_eq_put, EntryBuffer.mem_put h] at hm
      rcases hm with rfl | ⟨hm, -⟩
      · exact .inl List.mem_cons_self
      · exact .inr hm

theorem byteAt_foldl_perturbAt (h : EntryBuffer.wf m) {ps : List Nat} (hps : ps.Nodup) (q : Nat) :
    EntryBuffer.byteAt (ps.foldl perturbAt m) q = EntryBuffer.byteAt m q ^^^ if q ∈ ps then 0xFF else 0 := by
  induction ps generalizing m with
  | nil => simp
  | cons p ps ih =>
    obtain ⟨hp, hps⟩ := List.nodup_cons.mp hps
    rw [List.foldl_cons, ih (wf_perturbAt h p) hps, perturbAt_eq_put, EntryBuffer.byteAt_put h]
    by_cases hq : q = p
    · simp [hq, hp]
    · simp [hq]

theorem wf_workingCopy (h : EntryBuffer.wf m) : EntryBuffer.wf (workingCopy m) :=
  wf_foldl_perturbAt (wf_reflectEntries h) _

/-- The extended size has room for the working copy. -/
theorem lt_of_mem_workingCopy (h : EntryBuffer.wf m) {L : Nat} (hlt : ∀ e ∈ m, e.1 < L) :
    ∀ e ∈ workingCopy m, e.1 < L + 4 := by
  intro e he
  rcases mem_foldl_perturbAt (wf_reflectEntries h) _ he with hp | hm
  · have : ∀ p ∈ [0, 1, 2, 3], p < 4 := by decide
    have := this _ hp
    omega
  · obtain ⟨x, hx, rfl⟩ := List.mem_map.mp hm
    exact Nat.lt_add_right 4 (hlt x hx)

/-- The working copy holds the bytes reflected, the first four inverted. -/
theorem byteAt_workingCopy (h : EntryBuffer.wf m) (q : Nat) :
    EntryBuffer.byteAt (workingCopy m) q = reflect8 (EntryBuffer.byteAt m q) ^^^ if q < 4 then 0xFF else 0 := by
  have hmem : q ∈ [0, 1, 2, 3] ↔ q < 4 := by simp; omega
  rw [workingCopy, byteAt_foldl_perturbAt (wf_reflectEntries h) (by decide), byteAt_reflectEntries]
  simp only [hmem]

/-! ### The sparse CRC is the reference CRC-32 -/

theorem bytesPoly_map_xor (l : List Nat) (f g : Nat → Byte) :
    bytesPoly (l.map (fun q => f q ^^^ g q)) = bytesPoly (l.map f) + bytesPoly (l.map g) := by
  induction l with
  | nil => simp [bytesPoly]
  | cons q l ih =>
    simp only [List.map_cons, bytesPoly, ih, wordPoly_xor, List.length_map]
    ring

theorem bytesPoly_map_zero {l : List Nat} {f : Nat → Byte} (h : ∀ q ∈ l, f q = 0) : bytesPoly (l.map f) = 0 := by
  induction l with
  | nil => rfl
  | cons q l ih =>
    rw [List.map_cons, bytesPoly, h q List.mem_cons_self, ih fun x hx => h x (List.mem_cons_of_mem q hx), wordPoly_zero,
      zero_mul, add_zero]

/-- The bytes of the working copy: the buffer reflected and four zero bytes longer, and the initial value on the first
four. -/
theorem bytesPoly_materialize_workingCopy (h : EntryBuffer.wf m) {L : Nat} (hlt : ∀ e ∈ m, e.1 < L) :
    bytesPoly (materialize (L + 4) (workingCopy m)) =
      bytesPoly ((materialize L m).map reflect8) * X ^ 32 + bytesPoly [0xFF, 0xFF, 0xFF, 0xFF] * X ^ (8 * L) := by
  have hbyte : EntryBuffer.byteAt (workingCopy m) = _ := funext (byteAt_workingCopy h)
  rw [materialize_eq_map (wf_workingCopy h), materialize_eq_map h, hbyte, bytesPoly_map_xor]
  congr 1
  · have htail : ∀ q ∈ (List.range 4).map (L + ·), reflect8 (EntryBuffer.byteAt m q) = 0 := by
      intro q hq
      obtain ⟨i, -, rfl⟩ := List.mem_map.mp hq
      have hnone : EntryBuffer.lookup (L + i) m = none :=
        EntryBuffer.lookup_eq_none_iff.mpr fun x hx => by have := hlt x hx; omega
      rw [EntryBuffer.byteAt, hnone]
      decide
    rw [List.range_add, List.map_append, bytesPoly_append, bytesPoly_map_zero htail, List.map_map]
    simp [Function.comp_def]
  · have htail : ∀ q ∈ (List.range L).map (4 + ·), (if q < 4 then 0xFF else 0 : Byte) = 0 := by simp
    rw [Nat.add_comm L 4, List.range_add, List.map_append, bytesPoly_append, bytesPoly_map_zero htail]
    simp [List.range_succ]

/-- R155: the sparse CRC of a bounded canonical buffer is the CRC-32 of its bytes. -/
theorem crcSparse_eq_crc32Ref (h : EntryBuffer.wf m) {L : Nat} (hlt : ∀ e ∈ m, e.1 < L) :
    crcSparse L m = crc32Ref (materialize L m) := by
  have hinit : reflect32 0xFFFFFFFF = wordOfBytes 0xFF 0xFF 0xFF 0xFF := by decide +kernel
  have hreg : combined (L + 4) (workingCopy m) = reflect32 ((materialize L m).foldl crcByte 0xFFFFFFFF) := by
    apply wordPoly_injective
    rw [wordPoly_combined (wf_workingCopy h) (lt_of_mem_workingCopy h hlt), bytesPoly_materialize_workingCopy h hlt,
      wordPoly_reflect32_foldl_crcByte, hinit, wordPoly_wordOfBytes, length_materialize, add_comm]
  rw [crcSparse, hreg, reflect32_reflect32, crc32Ref]

/-- Settles O47: both sides are reflections of one remainder. -/
theorem crcSparseIsTheReferenceCrc : Obligations.CrcSparseIsTheReferenceCrc :=
  fun _ _ h hlt => crcSparse_eq_crc32Ref h hlt

end Sys2Proof.Reference

/-! ### A session, command by command (43_sparse_crc.md R160) -/

namespace Sys2Proof.Machine

open Sys2Proof.Reference

variable {s t u : State}

/-- The state in which a command run with N = n completes: N set and the command accepted. -/
def State.placed (s : State) (i : Instr) (n : DWord) : State :=
  { s with nLo := lo32 n, nHi := hi32 n }.accept (encode i)

/-- The command placed is pending with `n` in its snapshot. -/
theorem State.placed_pend (s : State) (i : Instr) (n : DWord) : (s.placed i n).pend = some ⟨encode i, s.a, s.b, n⟩ :=
  congrArg (fun k => some (Pending.mk (encode i) s.a s.b k)) (hi32_append_lo32 n)

theorem decode_encode (i : Instr) : decode (encode i) = .ok i := by
  rw [decode, encode, fieldsOf_packFields, decodeFields_fields]

/-- A command run is the completion of the command placed. -/
theorem runCommand_eq_exec (i : Instr) (n : DWord) (s : State) : runCommand i n s = exec i (s.placed i n) := by
  have hword : BitVec.ofNat 32 ((encode i).toNat % 2 ^ 32) = encode i := by
    rw [Nat.mod_eq_of_lt (encode i).isLt, BitVec.ofNat_toNat, BitVec.setWidth_eq]
  rw [runCommand, step_withFetchWord, hword]
  simp only [engineStep, State.accept_pend, State.snapshot_cmd, decode_encode]
  rfl

/-- A command whose rule raises no error leaves the rule's result, with the pending slot freed. -/
theorem runCommand_of_ruleOf_ok {i : Instr} {n : DWord}
    (h : ruleOf i ⟨encode i, s.a, s.b, n⟩ (s.placed i n) = .ok u) : runCommand i n s = .next u.retire := by
  rw [runCommand_eq_exec, exec_eq_complete]
  exact State.complete_ok (s.placed_pend i n) h

theorem runCommands_cons {i : Instr} {n : DWord} {cs : List (Instr × DWord)} (h : runCommand i n s = .next t) :
    runCommands ((i, n) :: cs) s = runCommands cs t := by
  rw [runCommands, h]

theorem runCommands_append {cs ds : List (Instr × DWord)} (h : runCommands cs s = .next t) :
    runCommands (cs ++ ds) s = runCommands ds t := by
  induction cs generalizing s with
  | nil => cases h; rfl
  | cons c cs ih =>
    cases hc : runCommand c.1 c.2 s with
    | next v =>
      rw [runCommands_cons hc] at h
      rw [List.cons_append, runCommands_cons hc, ih h]
    | fault r => simp [runCommands, hc] at h
    | refused r => simp [runCommands, hc] at h

/-! ### The commands of a session -/

theorem runCommand_scrcBegin (n : DWord) (s : State) :
    runCommand .scrcBegin n s =
      .next { s with nLo := lo32 n, nHi := hi32 n, size := n, eb := [], scrcOpen := true, pend := none } :=
  runCommand_of_ruleOf_ok (u := (s.placed .scrcBegin n).openSession n) rfl

/-- While a new position finds room, ECOUNT is not N_ENTRIES. -/
theorem ecount_ne_ecap (h : s.eb.length < s.ecap.toNat) : s.ecount ≠ s.ecap := by
  intro heq
  have hcap := s.ecap.isLt
  have hlen : s.ecount.toNat = s.eb.length := by
    rw [State.ecount, BitVec.toNat_ofNat, Nat.mod_eq_of_lt (h.trans hcap)]
  rw [heq] at hlen
  omega

/-- An entry below SIZE, at a position that is held already or finds room, is stored. -/
theorem runCommand_scrcEntry {n : DWord} {v : Byte} (hopen : s.scrcOpen = true) (hlt : n.toNat < s.size.toNat)
    (hroom : EntryBuffer.holds n.toNat s.eb = true ∨ s.eb.length < s.ecap.toNat) :
    runCommand (.scrcEntry v) n s =
      .next { s with nLo := lo32 n, nHi := hi32 n, eb := EntryBuffer.put n.toNat v s.eb, pend := none } := by
  refine runCommand_of_ruleOf_ok (u := (s.placed (.scrcEntry v) n).putEntry n.toNat v) ?_
  have hsize : ¬ s.size ≤ n := BitVec.not_le.mpr hlt
  have hcap : ¬ (EntryBuffer.holds n.toNat s.eb = false ∧ s.ecount = s.ecap) := by
    rintro ⟨hnew, hfull⟩
    rcases hroom with hheld | hroom
    · simp [hnew] at hheld
    · exact ecount_ne_ecap hroom hfull
  exact (if_neg (by simp [State.placed, hopen])).trans ((if_neg hsize).trans (if_neg hcap))

/-- A finishing command in an open session writes its result and closes the session. -/
theorem runCommand_finish {i : Instr} {result : Nat → EntryBuffer → Word}
    (hrule : ruleOf i = fun _ => finishRule result) (n : DWord) (hopen : s.scrcOpen = true) :
    runCommand i n s = .next { s with
      nLo := lo32 n, nHi := hi32 n, rHi := 0, rLo := result s.size.toNat s.eb, eb := [], scrcOpen := false,
      pend := none } := by
  refine runCommand_of_ruleOf_ok (u := ((s.placed i n).setR32 (result s.size.toNat s.eb)).closeSession) ?_
  rw [hrule]
  exact if_neg (by simp [State.placed, hopen])

/-! ### The entries of a session -/

/-- Writing entries never shortens a buffer. -/
theorem length_le_length_putAll {m : EntryBuffer} (h : EntryBuffer.wf m) (es : List Host.Cell) :
    m.length ≤ (putAll es m).length := by
  induction es generalizing m with
  | nil => exact Nat.le_refl _
  | cons e es ih =>
    have hput : m.length ≤ (EntryBuffer.put e.1 e.2 m).length := by
      rw [EntryBuffer.length_put h]
      split <;> omega
    exact hput.trans (ih (EntryBuffer.wf_put h))

/-- A buffer filled from the empty one holds only entries that were written. -/
theorem mem_of_mem_putAll_nil {es : List Host.Cell} {e : Host.Cell} (he : e ∈ putAll es []) : e ∈ es := by
  induction es using List.reverseRecOn with
  | nil => exact he
  | append_singleton es x ih =>
    rw [putAll_concat, EntryBuffer.mem_put (EntryBuffer.wf_putAll_nil es)] at he
    rcases he with rfl | ⟨he, -⟩
    · simp
    · exact List.mem_append_left _ (ih he)

/-- The entries of a session as positions and bytes. -/
abbrev cellsOf (es : List (DWord × Byte)) : List Host.Cell := es.map (fun e => (e.1.toNat, e.2))

/-- The buffer that entries leave holds at most as many positions as they name. -/
theorem length_putAll_cellsOf_le (es : List (DWord × Byte)) :
    (putAll (cellsOf es) []).length ≤ (es.map (·.1)).dedup.length := by
  have hwf := EntryBuffer.wf_putAll_nil (cellsOf es)
  have hnodup : ((putAll (cellsOf es) []).map (·.1)).Nodup :=
    List.pairwise_map.mpr (hwf.imp fun hlt => Nat.ne_of_lt hlt)
  have hsub : (putAll (cellsOf es) []).map (·.1) ⊆ (es.map (·.1)).dedup.map BitVec.toNat := by
    intro q hq
    obtain ⟨e, he, rfl⟩ := List.mem_map.mp hq
    obtain ⟨x, hx, rfl⟩ := List.mem_map.mp (mem_of_mem_putAll_nil he)
    exact List.mem_map_of_mem (List.mem_dedup.mpr (List.mem_map_of_mem hx))
  simpa using (List.subperm_of_subset hnodup hsub).length_le

/-- The SCRC_ENTRY commands of a session store their entries, when the buffer that they leave fits. Of the other fields
only N and the pending slot change. -/
theorem runCommands_entries (es : List (DWord × Byte)) (hopen : s.scrcOpen = true) (hwf : EntryBuffer.wf s.eb)
    (hlt : ∀ e ∈ es, e.1.toNat < s.size.toNat) (hcap : (putAll (cellsOf es) s.eb).length ≤ s.ecap.toNat) :
    ∃ lo hi pend, runCommands (es.map (fun e => (.scrcEntry e.2, e.1))) s =
      .next { s with nLo := lo, nHi := hi, eb := putAll (cellsOf es) s.eb, pend := pend } := by
  induction es generalizing s with
  | nil => exact ⟨s.nLo, s.nHi, s.pend, rfl⟩
  | cons e es ih =>
    have hput := (length_le_length_putAll (EntryBuffer.wf_put hwf) (cellsOf es)).trans hcap
    have hroom : EntryBuffer.holds e.1.toNat s.eb = true ∨ s.eb.length < s.ecap.toNat := by
      rw [EntryBuffer.length_put hwf] at hput
      cases hheld : EntryBuffer.holds e.1.toNat s.eb with
      | true => exact .inl rfl
      | false => rw [hheld] at hput; exact .inr hput
    have hrun := runCommand_scrcEntry (v := e.2) hopen (hlt e List.mem_cons_self) hroom
    rw [List.map_cons, runCommands_cons hrun]
    exact ih hopen (EntryBuffer.wf_put hwf) (fun x hx => hlt x (List.mem_cons_of_mem e hx)) hcap

/-- A whole session leaves the finishing command's result of the buffer its entries leave, and closes. -/
theorem runCommands_session {i : Instr} {result : Nat → EntryBuffer → Word}
    (hrule : ruleOf i = fun _ => finishRule result) (s : State) {L : DWord} {es : List (DWord × Byte)}
    (hlt : ∀ e ∈ es, e.1.toNat < L.toNat) (hcap : (es.map (·.1)).dedup.length ≤ s.ecap.toNat) :
    ∃ t, runCommands (session L es i) s = .next t ∧ t.rLo = result L.toNat (putAll (cellsOf es) []) ∧ t.rHi = 0 ∧
      t.scrcOpen = false ∧ t.eb = [] ∧ t.size = L ∧ t.err = s.err ∧ t.errCode = s.errCode ∧ t.remAcc = s.remAcc := by
  rw [session, runCommands_cons (runCommand_scrcBegin L s)]
  obtain ⟨lo, hi, pend, hrun⟩ := runCommands_entries
    (s := { s with nLo := lo32 L, nHi := hi32 L, size := L, eb := [], scrcOpen := true, pend := none }) es rfl
    List.Pairwise.nil hlt ((length_putAll_cellsOf_le es).trans hcap)
  rw [runCommands_append hrun, runCommands_cons (runCommand_finish hrule L rfl)]
  exact ⟨_, rfl, rfl, rfl, rfl, rfl, rfl, rfl, rfl, rfl⟩

/-- Entries below a size leave a buffer below it. -/
theorem putAll_cellsOf_lt {L : Nat} {es : List (DWord × Byte)} (hlt : ∀ e ∈ es, e.1.toNat < L) :
    ∀ e ∈ putAll (cellsOf es) [], e.1 < L := by
  intro e he
  obtain ⟨x, hx, rfl⟩ := List.mem_map.mp (mem_of_mem_putAll_nil he)
  exact hlt x hx

/-- Settles O52: the session by its commands, then R155 and R153 of the buffer it holds at its end. -/
theorem sessionComputesTheChecksum : Obligations.SessionComputesTheChecksum := by
  intro s L es hlt hcap
  have hwf := EntryBuffer.wf_putAll_nil (cellsOf es)
  have hbound := putAll_cellsOf_lt hlt
  constructor
  · obtain ⟨t, hrun, hlo, hrest⟩ := runCommands_session (i := .scrcFinish) (result := crcSparse) rfl s hlt hcap
    rw [crcSparse_eq_crc32Ref hwf hbound, materialize_putAll] at hlo
    exact ⟨t, hrun, hlo, hrest⟩
  · obtain ⟨t, hrun, hlo, hrest⟩ := runCommands_session (i := .sremFinish) (result := combined) rfl s hlt hcap
    refine ⟨t, hrun, ?_, hrest⟩
    rw [hlo, wordPoly_combined hwf hbound, materialize_putAll]

end Sys2Proof.Machine

/-! ### What one step does to the state, effect by effect (10_state.md R20) -/

namespace Sys2Proof.Machine

variable {s t u : State} {p : Pending} {i : Instr}

/-- A write of the window issues a command or gives the operand registers values (20_memory.md R54). -/
theorem writeReg_cases (s : State) (r : Reg) (v : Word) :
    r = .CMD ∧ s.writeReg r v = s.issue v ∨ ∃ a b nLo nHi, s.writeReg r v = s.withOperands a b nLo nHi := by
  cases r with
  | CMD => exact .inl ⟨rfl, rfl⟩
  | A => exact .inr ⟨v, s.b, s.nLo, s.nHi, rfl⟩
  | B => exact .inr ⟨s.a, v, s.nLo, s.nHi, rfl⟩
  | N_LO => exact .inr ⟨s.a, s.b, v, s.nHi, rfl⟩
  | N_HI => exact .inr ⟨s.a, s.b, s.nLo, v, rfl⟩
  | STATUS | R_LO | R_HI | REM_ACC | SIZE_LO | SIZE_HI | ECOUNT | ECAP | RSVD34 | RSVD38 | RSVD3C =>
    exact .inr ⟨s.a, s.b, s.nLo, s.nHi, rfl⟩

/-- A turn of the polling loop changes the host's queue and log only. -/
theorem hostPoll_eq (s : State) (r : Reg) :
    ∃ q, s.hostPoll r = { s with hostQueue := q, readLog := s.readReg r :: s.readLog } := by
  unfold State.hostPoll
  split
  · exact ⟨.wait :: s.hostQueue, rfl⟩
  · exact ⟨s.hostQueue, rfl⟩

/-- What a step can do, with what makes it do so: the state after it is one of these. -/
inductive StepEffect (s : State) : State → Prop
  /-- The reset input is asserted. -/
  | resetAsserted (turn : nextTurn s = .resetPin true) : StepEffect s ((popTurn s).driveReset true)
  /-- The reset input is released. -/
  | resetReleased (turn : nextTurn s = .resetPin false) : StepEffect s ((popTurn s).driveReset false)
  /-- The turn of an agent with nothing to do passes (log 3). -/
  | passed (nothing : nextTurn s = .engine ∧ s.pend = none ∨ nextTurn s = .host ∧ s.hostQueue = []) :
      StepEffect s (popTurn s)
  /-- An access of the host reaches its own side and the operand registers. -/
  | accessed (a b nLo nHi : Word) (q : List HostOp) (l : List Word) (turn : nextTurn s = .host)
      (released : s.resetPin = false) :
      StepEffect s { (popTurn s).withOperands a b nLo nHi with hostQueue := q, readLog := l }
  /-- A CMD write is accepted (44_control.md R181). -/
  | accepted (w : Word) (ops : List HostOp) (issues : HostIssues s (.write .w32 (s.regBase + 0x00) w) ops)
      (idle : s.pend = none) : StepEffect s ((issued s ops).accept w)
  /-- A CMD write is dropped (44_control.md R182). -/
  | dropped (w : Word) (ops : List HostOp) (issues : HostIssues s (.write .w32 (s.regBase + 0x00) w) ops)
      (busy : s.pend ≠ none) : StepEffect s ((issued s ops).record .busy)
  /-- The pending word is illegal, or its command raises an error (60_exceptions.md R204). -/
  | raised (p : Pending) (e : ErrorCode) (turn : nextTurn s = .engine) (pending : s.pend = some p)
      (cause : (∃ e', decode p.cmd = .error e') ∨ ∃ i, decode p.cmd = .ok i ∧ ruleOf i p (popTurn s) = .error e) :
      StepEffect s ((popTurn s).raiseError e)
  /-- The pending command completes with no error (44_control.md R183). -/
  | completed (p : Pending) (i : Instr) (u : State) (turn : nextTurn s = .engine) (pending : s.pend = some p)
      (decoded : decode p.cmd = .ok i) (rule : ruleOf i p (popTurn s) = .ok u) : StepEffect s u.retire

theorem stepEffect_of_engineStep (turn : nextTurn s = .engine) (h : engineStep (popTurn s) = .next t) :
    StepEffect s t := by
  obtain ⟨hp, rfl⟩ | ⟨p, e, hp, hd, rfl⟩ | ⟨p, i, hp, hd, hx⟩ := engineStep_cases h
  · exact .passed (.inl ⟨turn, hp⟩)
  · exact .raised p .illegal turn hp (.inl ⟨e, hd⟩)
  · rw [exec_eq_complete] at hx
    obtain ⟨p', hp', hx⟩ := State.complete_cases hx
    obtain rfl : p = p' := Option.some.inj (hp.symm.trans hp')
    obtain ⟨u, hr, rfl⟩ | ⟨e, hr, rfl⟩ := hx
    · exact .completed p i u turn hp hd hr
    · exact .raised p e turn hp (.inr ⟨i, hd, hr⟩)

theorem stepEffect_of_hostStep (turn : nextTurn s = .host) (h : hostStep (popTurn s) = .next t) :
    StepEffect s t := by
  obtain ⟨hq, rfl⟩ | ⟨r, ops, hr, -, rfl⟩ | ⟨r, v, ops, hr, hq, rfl⟩ | ⟨ops, hr, -, rfl⟩ := hostStep_cases h
  · exact .passed (.inr ⟨turn, hq⟩)
  · exact .accessed s.a s.b s.nLo s.nHi _ _ turn hr
  · obtain ⟨rfl, hw⟩ | ⟨a, b, nLo, nHi, hw⟩ := writeReg_cases (popTurn s).dequeue r v
    · have hi : HostIssues s (.write .w32 (s.regBase + 0x00) v) ops := ⟨turn, hr, hq⟩
      rw [hw, dequeue_popTurn hi, State.issue]
      cases hp : s.pend with
      | none => rw [if_neg (by simp [State.busy, issued, hp])]; exact .accepted v ops hi hp
      | some p => rw [if_pos (by simp [State.busy, issued, hp])]; exact .dropped v ops hi (by simp [hp])
    · rw [hw]
      exact .accessed a b nLo nHi _ _ turn hr
  · obtain ⟨q, hw⟩ := hostPoll_eq (popTurn s).dequeue .STATUS
    rw [hw]
    exact .accessed s.a s.b s.nLo s.nHi q _ turn hr

/-- Inversion: the effects listed are all that a step can have. -/
theorem stepEffect_of_step (h : step s = .next t) : StepEffect s t := by
  obtain ⟨b, turn, rfl⟩ | ⟨turn, h⟩ | ⟨turn, h⟩ := step_cases h
  · cases b with
    | true => exact .resetAsserted turn
    | false => exact .resetReleased turn
  · exact stepEffect_of_engineStep turn h
  · exact stepEffect_of_hostStep turn h

/-- No step changes the parameters. -/
theorem StepEffect.params (h : StepEffect s t) : t.ecap = s.ecap ∧ t.regBase = s.regBase := by
  cases h with
  | completed p i u _ _ _ rule =>
    obtain ⟨-, -, -, -, hcap, hbase, -⟩ := ruleOf_frame rule
    exact ⟨hcap, hbase⟩
  | dropped | raised => simp [issued]
  | resetAsserted | resetReleased | passed | accessed | accepted => exact ⟨rfl, rfl⟩

/-- Settles O55: the parameters over each effect of a step, and the window's ECAP. -/
theorem parametersNeverChange : Obligations.ParametersNeverChange :=
  ⟨fun _ _ h => (stepEffect_of_step h).params, rfl, fun _ => rfl, rfl⟩

/-- Settles O19: of the effects of a step, the host's turn has those of its accesses only. -/
theorem hostStepsLeaveResultsAlone : Obligations.HostStepsLeaveResultsAlone := by
  intro s t turn h
  cases stepEffect_of_step h with
  | resetAsserted turn' | resetReleased turn' | raised _ _ turn' | completed _ _ _ turn' =>
    cases turn.symm.trans turn'
  | passed | accessed => exact ⟨rfl, rfl, rfl, rfl, rfl, rfl, rfl, rfl, rfl, rfl, fun _ hp => hp⟩
  | accepted w ops _ idle => simp [issued, idle]
  | dropped => simp [issued]

/-! ### What a command's rule does to the flags and the session -/

/-- Only CLRERR's rule writes the error record, and it clears it. -/
theorem ruleOf_record (h : ruleOf i p s = .ok u) :
    u.err = s.err ∧ u.errCode = s.errCode ∨ i = .clrErr ∧ u.err = false ∧ u.errCode = 0 := by
  cases i with
  | clrErr => cases h; exact .inr ⟨rfl, rfl, rfl⟩
  | remByte | remWord => obtain ⟨-, rfl⟩ := remFeedRule_ok h; exact .inl ⟨rfl, rfl⟩
  | scrcEntry => obtain ⟨-, -, -, rfl⟩ := scrcEntryRule_ok h; exact .inl ⟨rfl, rfl⟩
  | scrcFinish | sremFinish => obtain ⟨-, rfl⟩ := finishRule_ok h; exact .inl ⟨rfl, rfl⟩
  | remLoad | clMul | modMul | modExp | scrcBegin => cases h; exact .inl ⟨rfl, rfl⟩

/-- Only REM_LOAD's rule writes REM_VALID, and it sets it. -/
theorem ruleOf_remValid (h : ruleOf i p s = .ok u) :
    u.remValid = s.remValid ∨ i = .remLoad ∧ u.remValid = true := by
  cases i with
  | remLoad => cases h; exact .inr ⟨rfl, rfl⟩
  | remByte | remWord => obtain ⟨-, rfl⟩ := remFeedRule_ok h; exact .inl rfl
  | scrcEntry => obtain ⟨-, -, -, rfl⟩ := scrcEntryRule_ok h; exact .inl rfl
  | scrcFinish | sremFinish => obtain ⟨-, rfl⟩ := finishRule_ok h; exact .inl rfl
  | clrErr | clMul | modMul | modExp | scrcBegin => cases h; exact .inl rfl

/-- What a rule does to the session: nothing, or it opens it, closes it, or stores an entry that is below SIZE and finds
room (43_sparse_crc.md R156 to R159). -/
theorem ruleOf_session (h : ruleOf i p s = .ok u) :
    (u.scrcOpen = s.scrcOpen ∧ u.size = s.size ∧ u.eb = s.eb) ∨
    (i = .scrcBegin ∧ u.scrcOpen = true ∧ u.eb = []) ∨
    ((i = .scrcFinish ∨ i = .sremFinish) ∧ u.scrcOpen = false ∧ u.eb = []) ∨
    (s.scrcOpen = true ∧ p.n < s.size ∧ (EntryBuffer.holds p.position s.eb = true ∨ s.ecount ≠ s.ecap) ∧
      ∃ v, u = s.putEntry p.position v) := by
  cases i with
  | remByte | remWord => obtain ⟨-, rfl⟩ := remFeedRule_ok h; exact .inl ⟨rfl, rfl, rfl⟩
  | clrErr | remLoad | clMul | modMul | modExp => cases h; exact .inl ⟨rfl, rfl, rfl⟩
  | scrcBegin => cases h; exact .inr (.inl ⟨rfl, rfl, rfl⟩)
  | scrcFinish => obtain ⟨-, rfl⟩ := finishRule_ok h; exact .inr (.inr (.inl ⟨.inl rfl, rfl, rfl⟩))
  | sremFinish => obtain ⟨-, rfl⟩ := finishRule_ok h; exact .inr (.inr (.inl ⟨.inr rfl, rfl, rfl⟩))
  | scrcEntry imm =>
    obtain ⟨hopen, hlt, hroom, rfl⟩ := scrcEntryRule_ok h
    exact .inr (.inr (.inr ⟨hopen, hlt, hroom, imm, rfl⟩))

/-! ### What one step does to the flags of STATUS (10_state.md R23) -/

/-- BUSY: a CMD write sets it, a turn of the engine or reset clears it. -/
theorem StepEffect.pend (h : StepEffect s t) :
    t.pend = s.pend ∨
    (s.pend = none ∧ ∃ w ops, HostIssues s (.write .w32 (s.regBase + 0x00) w) ops) ∨
    (t.pend = none ∧ (nextTurn s = .engine ∨ nextTurn s = .resetPin true)) := by
  cases h with
  | resetReleased | passed | accessed => exact .inl rfl
  | dropped => exact .inl (State.record_pend _ _)
  | accepted w ops issues idle => exact .inr (.inl ⟨idle, w, ops, issues⟩)
  | resetAsserted turn => exact .inr (.inr ⟨rfl, .inr turn⟩)
  | raised _ _ turn => exact .inr (.inr ⟨rfl, .inl turn⟩)
  | completed _ _ _ turn => exact .inr (.inr ⟨rfl, .inl turn⟩)

/-- What records an error at a step (60_exceptions.md R202): a CMD write that is dropped, an illegal word, or a command
that raises an error. -/
def RecordsError (s : State) : Prop :=
  (s.pend ≠ none ∧ ∃ w ops, HostIssues s (.write .w32 (s.regBase + 0x00) w) ops) ∨
  (nextTurn s = .engine ∧ ∃ p e, s.pend = some p ∧ decode p.cmd = .error e) ∨
  (∃ i, Completes s i ∧ (((∃ imm, i = .remByte imm) ∨ i = .remWord) ∧ s.remValid = false ∨
    (i = .scrcFinish ∨ i = .sremFinish) ∧ s.scrcOpen = false ∨ ∃ imm, i = .scrcEntry imm))

/-- The error record: kept, or an error recorded, or cleared by CLRERR or reset (60_exceptions.md R203). -/
theorem StepEffect.record (h : StepEffect s t) :
    (t.err = s.err ∧ t.errCode = s.errCode) ∨
    (∃ e : ErrorCode, t.err = true ∧ t.errCode = (if s.err then s.errCode else e.code) ∧ RecordsError s) ∨
    (t.err = false ∧ t.errCode = 0 ∧ (Completes s .clrErr ∨ nextTurn s = .resetPin true)) := by
  cases h with
  | resetReleased | passed | accessed | accepted => exact .inl ⟨rfl, rfl⟩
  | resetAsserted turn => exact .inr (.inr ⟨rfl, rfl, .inr turn⟩)
  | dropped w ops issues busy =>
    exact .inr (.inl ⟨.busy, State.record_err _ _, State.record_errCode _ _, .inl ⟨busy, w, ops, issues⟩⟩)
  | raised p e turn pending cause =>
    refine .inr (.inl ⟨e, State.raiseError_err _ _, State.raiseError_errCode _ _, .inr ?_⟩)
    obtain ⟨e', hd⟩ | ⟨i, hd, hr⟩ := cause
    · exact .inl ⟨turn, p, e', pending, hd⟩
    · exact .inr ⟨i, ⟨turn, p, pending, hd⟩, ruleOf_error (s := popTurn s) hr⟩
  | completed p i u turn pending decoded rule =>
    obtain hkept | ⟨rfl, herr, hcode⟩ := ruleOf_record rule
    · exact .inl hkept
    · exact .inr (.inr ⟨herr, hcode, .inl ⟨turn, p, pending, decoded⟩⟩)

/-- REM_VALID: REM_LOAD sets it, reset clears it. -/
theorem StepEffect.remValid (h : StepEffect s t) :
    t.remValid = s.remValid ∨ (t.remValid = true ∧ Completes s .remLoad) ∨
    (t.remValid = false ∧ nextTurn s = .resetPin true) := by
  cases h with
  | resetReleased | passed | accessed | accepted => exact .inl rfl
  | dropped => exact .inl (State.record_remValid _ _)
  | raised => exact .inl (State.raiseError_remValid _ _)
  | resetAsserted turn => exact .inr (.inr ⟨rfl, turn⟩)
  | completed p i u turn pending decoded rule =>
    obtain hkept | ⟨rfl, hset⟩ := ruleOf_remValid rule
    · exact .inl hkept
    · exact .inr (.inl ⟨hset, turn, p, pending, decoded⟩)

/-- SCRC_OPEN: SCRC_BEGIN sets it, a finishing command or reset clears it. -/
theorem StepEffect.scrcOpen (h : StepEffect s t) :
    t.scrcOpen = s.scrcOpen ∨ (t.scrcOpen = true ∧ Completes s .scrcBegin) ∨
    (t.scrcOpen = false ∧ (Completes s .scrcFinish ∨ Completes s .sremFinish ∨ nextTurn s = .resetPin true)) := by
  cases h with
  | resetReleased | passed | accessed | accepted => exact .inl rfl
  | dropped => exact .inl (State.record_scrcOpen _ _)
  | raised => exact .inl (State.raiseError_scrcOpen _ _)
  | resetAsserted turn => exact .inr (.inr ⟨rfl, .inr (.inr turn)⟩)
  | completed p i u turn pending decoded rule =>
    obtain ⟨hkept, -⟩ | ⟨rfl, hset, -⟩ | ⟨rfl | rfl, hclear, -⟩ | ⟨-, -, -, v, rfl⟩ := ruleOf_session rule
    · exact .inl hkept
    · exact .inr (.inl ⟨hset, turn, p, pending, decoded⟩)
    · exact .inr (.inr ⟨hclear, .inl ⟨turn, p, pending, decoded⟩⟩)
    · exact .inr (.inr ⟨hclear, .inr (.inl ⟨turn, p, pending, decoded⟩)⟩)
    · exact .inl rfl

/-- A flag that is kept, set for one reason or cleared for another changes for these reasons only. -/
theorem flag_changes_only_by {x y : Bool} {sets clears : Prop}
    (h : y = x ∨ (y = true ∧ sets) ∨ (y = false ∧ clears)) :
    (x = false → y = true → sets) ∧ (x = true → y = false → clears) := by
  obtain rfl | ⟨rfl, hs⟩ | ⟨rfl, hc⟩ := h
  · cases y <;> simp
  · simp [hs]
  · simp [hc]

/-- ERR as a flag: what records an error sets it, CLRERR or reset clears it. -/
theorem StepEffect.err (h : StepEffect s t) :
    t.err = s.err ∨ (t.err = true ∧ RecordsError s) ∨
    (t.err = false ∧ (Completes s .clrErr ∨ nextTurn s = .resetPin true)) := by
  obtain ⟨herr, -⟩ | ⟨e, herr, -, hwhy⟩ | ⟨herr, -, hwhy⟩ := h.record
  · exact .inl herr
  · exact .inr (.inl ⟨herr, hwhy⟩)
  · exact .inr (.inr ⟨herr, hwhy⟩)

/-- ERRCODE changes only as ERR is set, or by CLRERR or reset. -/
theorem StepEffect.errCode (h : StepEffect s t) (hne : t.errCode ≠ s.errCode) :
    s.err = false ∧ t.err = true ∨ Completes s .clrErr ∨ nextTurn s = .resetPin true := by
  obtain ⟨-, hcode⟩ | ⟨e, herr, hcode, -⟩ | ⟨-, -, hwhy⟩ := h.record
  · exact absurd hcode hne
  · cases hs : s.err with
    | false => exact .inl ⟨rfl, herr⟩
    | true => exact absurd (hcode.trans (if_pos hs)) hne
  · exact .inr hwhy

/-- Settles O59: each flag's clauses from what a step does to that flag. -/
theorem statusFlagsChangeOnlyAsListed : Obligations.StatusFlagsChangeOnlyAsListed := by
  intro s t h
  have heff := stepEffect_of_step h
  obtain ⟨herrSet, herrClear⟩ := flag_changes_only_by heff.err
  obtain ⟨hvalidSet, hvalidClear⟩ := flag_changes_only_by heff.remValid
  obtain ⟨hopenSet, hopenClear⟩ := flag_changes_only_by heff.scrcOpen
  refine ⟨fun hs ht => ?_, fun hs ht => ?_, herrSet, herrClear, heff.errCode, hvalidSet, hvalidClear, hopenSet,
    hopenClear⟩
  · obtain hkept | ⟨-, hwrite⟩ | ⟨hnone, -⟩ := heff.pend
    · exact absurd (hkept.trans hs) ht
    · exact hwrite
    · exact absurd hnone ht
  · obtain hkept | ⟨hnone, -⟩ | ⟨-, hturn⟩ := heff.pend
    · exact absurd (hkept.symm.trans ht) hs
    · exact absurd hnone hs
    · exact hturn

/-! ### The invariant, part by part -/

/-- The error record's part of the invariant (10_state.md R36, 60_exceptions.md R201). -/
def RecordOk (err : Bool) (code : BitVec 4) : Prop :=
  (err = false → code = 0) ∧ (err = true → 1 ≤ code.toNat ∧ code.toNat ≤ 6)

theorem recordOk_clear : RecordOk false 0 := ⟨fun _ => rfl, nofun⟩

/-- An error recorded, or left out behind an earlier one, leaves a record in order. -/
theorem RecordOk.record {err : Bool} {code : BitVec 4} (h : RecordOk err code) (e : ErrorCode) :
    RecordOk true (if err then code else e.code) := by
  refine ⟨nofun, fun _ => ?_⟩
  cases err with
  | false => exact e.code_bounds
  | true => exact h.2 rfl

/-- The session's part of the invariant (10_state.md R30, R34; 43_sparse_crc.md R157 to R159). -/
structure SessionOk (s : State) : Prop where
  rising : EntryBuffer.wf s.eb
  inSize : ∀ e ∈ s.eb, e.1 < s.size.toNat
  closed : s.scrcOpen = false → s.eb = []
  capacity : s.eb.length ≤ s.ecap.toNat

theorem sessionOk_of_eb_nil (h : s.eb = []) : SessionOk s := by
  constructor <;> simp [h]

/-- The session's part reads the session and ECAP only. -/
theorem SessionOk.congr (h : SessionOk s) (hopen : t.scrcOpen = s.scrcOpen) (hsize : t.size = s.size) (heb : t.eb = s.eb)
    (hcap : t.ecap = s.ecap) : SessionOk t := by
  obtain ⟨hrising, hin, hclosed, hcapacity⟩ := h
  constructor <;> simpa only [hopen, hsize, heb, hcap]

/-- In an open session an entry below SIZE that finds room is stored with the session in order: were the buffer full,
ECOUNT would be N_ENTRIES. -/
theorem SessionOk.putEntry (h : SessionOk s) {q : Nat} (hopen : s.scrcOpen = true) (hlt : q < s.size.toNat)
    (hroom : EntryBuffer.holds q s.eb = true ∨ s.ecount ≠ s.ecap) (v : Byte) : SessionOk (s.putEntry q v) where
  rising := EntryBuffer.wf_put h.rising
  inSize e he := by
    obtain rfl | ⟨he, -⟩ := (EntryBuffer.mem_put h.rising).mp he
    · exact hlt
    · exact h.inSize e he
  closed hc := by simp [hopen] at hc
  capacity := by
    have hcap := h.capacity
    rw [State.putEntry_eb, EntryBuffer.length_put h.rising, State.putEntry_ecap]
    obtain hheld | hne := hroom
    · rwa [if_pos hheld]
    · have hnotFull : s.eb.length ≠ s.ecap.toNat := by
        intro hfull
        rw [State.ecount, hfull, BitVec.ofNat_toNat, BitVec.setWidth_eq] at hne
        exact hne rfl
      split <;> omega

theorem State.Inv.recordOk (h : s.Inv) : RecordOk s.err s.errCode := ⟨h.errCodeClear, h.errCodeListed⟩

theorem State.Inv.sessionOk (h : s.Inv) : SessionOk s := ⟨h.ebRising, h.ebInSize, h.ebClosed, h.ebCapacity⟩

/-- While reset is asserted nothing is pending. -/
theorem State.Inv.resetPin_of_pend (h : s.Inv) (hp : s.pend = some p) : s.resetPin = false := by
  by_contra hpin
  have hnone : none = s.pend := congrArg State.pend (h.resetHeld (Bool.eq_true_of_not_eq_false hpin))
  rw [hp] at hnone
  cases hnone

theorem StepEffect.recordOk (h : StepEffect s t) (hs : RecordOk s.err s.errCode) : RecordOk t.err t.errCode := by
  obtain ⟨herr, hcode⟩ | ⟨e, herr, hcode, -⟩ | ⟨herr, hcode, -⟩ := h.record
  · rwa [herr, hcode]
  · rw [herr, hcode]; exact hs.record e
  · rw [herr, hcode]; exact recordOk_clear

theorem StepEffect.sessionOk (h : StepEffect s t) (hs : SessionOk s) : SessionOk t := by
  cases h with
  | resetAsserted => exact sessionOk_of_eb_nil rfl
  | resetReleased | passed | accessed | accepted => exact hs.congr rfl rfl rfl rfl
  | dropped | raised => exact hs.congr (by simp [issued]) (by simp [issued]) (by simp [issued]) (by simp [issued])
  | completed p i u _ _ _ rule =>
    obtain ⟨-, -, -, -, hcap, -⟩ := ruleOf_frame rule
    obtain ⟨hopen, hsize, heb⟩ | ⟨-, -, heb⟩ | ⟨-, -, heb⟩ | ⟨hopen, hlt, hroom, v, rfl⟩ := ruleOf_session rule
    · exact hs.congr hopen hsize heb hcap
    · exact sessionOk_of_eb_nil heb
    · exact sessionOk_of_eb_nil heb
    · exact (hs.putEntry hopen hlt hroom v).congr rfl rfl rfl rfl

/-- While reset stays asserted a step keeps the reset values: only turns pass, since no access has a step and nothing is
pending (70_reset_and_hazards.md R230). -/
theorem StepEffect.resetHeld (h : StepEffect s t) (hs : s.Inv) (hpin : t.resetPin = true) : t.driveReset true = t := by
  cases h with
  | resetAsserted => exact State.driveReset_idem _
  | resetReleased => cases hpin
  | passed => exact congrArg popTurn (hs.resetHeld hpin)
  | accessed _ _ _ _ _ _ _ released => cases released.symm.trans hpin
  | accepted _ _ issues => cases issues.2.1.symm.trans hpin
  | dropped _ _ issues => rw [State.record_resetPin] at hpin; cases issues.2.1.symm.trans hpin
  | raised _ _ _ pending =>
    rw [State.raiseError_resetPin] at hpin; cases (hs.resetPin_of_pend pending).symm.trans hpin
  | completed _ _ _ _ pending _ rule =>
    obtain ⟨-, -, -, -, -, -, hkept, -⟩ := ruleOf_frame rule
    cases (hs.resetPin_of_pend pending).symm.trans (hkept.symm.trans hpin)

/-- Settles O54: each part of the invariant over each effect of a step. -/
theorem stepKeepsTheInvariant : Obligations.StepKeepsTheInvariant := by
  intro s t hs h
  have heff := stepEffect_of_step h
  obtain ⟨hcap, hbase⟩ := heff.params
  obtain ⟨hclear, hlisted⟩ := heff.recordOk hs.recordOk
  obtain ⟨hrising, hin, hclosed, hcapacity⟩ := heff.sessionOk hs.sessionOk
  exact ⟨hclear, hlisted, hrising, hin, hclosed, hcapacity, hcap ▸ hs.capPositive, hbase ▸ hs.baseAligned,
    heff.resetHeld hs⟩

/-! ### The state after reset (10_state.md R40) -/

/-- N_ENTRIES is the choice counted from 1, without wrapping. -/
theorem nEntries_toNat : Config.nEntries.toNat = Config.capacityChoice.val + 1 := by
  have hlt := Config.capacityChoice.isLt
  rw [Config.nEntries, BitVec.toNat_ofNat, Nat.mod_eq_of_lt (by omega)]

/-- N_ENTRIES is at least 1 (00_scope.md R5). -/
theorem one_le_nEntries : 1 ≤ Config.nEntries.toNat := by
  rw [nEntries_toNat]
  omega

/-- The block after reset meets the invariant whatever admitted parameters it has. -/
theorem resetWith_inv {cap : Word} {base : Nat} (hcap : 1 ≤ cap.toNat) (hbase : base % 64 = 0) :
    (State.resetWith cap base).Inv := by
  obtain ⟨hclear, hlisted⟩ := recordOk_clear
  obtain ⟨hrising, hin, hclosed, hcapacity⟩ := sessionOk_of_eb_nil (s := State.resetWith cap base) rfl
  exact ⟨hclear, hlisted, hrising, hin, hclosed, hcapacity, hcap, hbase, nofun⟩

/-- Settles O53: the reset state has admitted parameters. -/
theorem resetStateMeetsTheInvariant : Obligations.ResetStateMeetsTheInvariant :=
  resetWith_inv one_le_nEntries (Nat.mul_mod_right 64 _)

/-- Settles O21: the fields as `State.resetWith` gives them, and the range of the parameter. -/
theorem stateAfterReset : Obligations.StateAfterReset := by
  refine ⟨rfl, rfl, rfl, rfl, rfl, rfl, rfl, rfl, rfl, rfl, rfl, rfl, rfl, rfl, rfl, by decide, rfl, rfl, rfl, rfl, rfl,
    one_le_nEntries, ?_⟩
  have hlt := Config.nEntries.isLt
  omega

end Sys2Proof.Machine

/-! ### The register window seen by the host (20_memory.md R50 to R54) -/

namespace Sys2Proof.Machine

variable {s : State} {ops : List HostOp} {off : Nat}

/-- The registers stand in the window one word after another (10_state.md R21). -/
theorem regOffset_of_windowRegs {k : Nat} {r : Reg} (h : windowRegs[k]? = some r) : regOffset r = 4 * k := by
  obtain ⟨hk, rfl⟩ := List.getElem?_eq_some_iff.mp h
  revert k
  decide

/-- STATUS as the sum of its flags, each where it is set, and of ERRCODE at bit 8 (10_state.md R23). -/
theorem State.status_eq_ofNat (s : State) :
    s.status = BitVec.ofNat 32 ((if s.pend.isSome then 1 else 0) + (if s.err then 2 else 0) +
      (if s.remValid then 4 else 0) + (if s.scrcOpen then 8 else 0) + 256 * s.errCode.toNat) := by
  have hflag (b : Bool) (w : Nat) : (if b then w else 0) = w * b.toNat := by cases b <;> simp
  calc s.status = BitVec.ofNat 32 s.status.toNat := by rw [BitVec.ofNat_toNat, BitVec.setWidth_eq]
    _ = _ := by rw [s.status_toNat]; simp only [hflag, Nat.one_mul]; rfl

/-- Settles O14: the list of the statement is the window read register by register, so its entry at `k` is the value of
the register at offset `4 * k`. -/
theorem hostReadsReturnTheRegister : Obligations.HostReadsReturnTheRegister := by
  intro s k v ops h hv
  rw [← s.status_eq_ofNat] at hv
  have hread : (windowRegs.map s.readReg)[k]? = some v := hv
  rw [List.getElem?_map] at hread
  obtain ⟨r, hr, rfl⟩ := Option.map_eq_some_iff.mp hread
  rw [← regOffset_of_windowRegs hr] at h
  have hkept : (issued s ops).readReg r = s.readReg r := by cases r <;> rfl
  rw [step_hostRead h, State.hostRead, hkept]
  rfl

/-- The registers that a write of the host does not reach (20_memory.md R54). -/
def readOnlyRegs : List Reg :=
  [.STATUS, .R_LO, .R_HI, .REM_ACC, .SIZE_LO, .SIZE_HI, .ECOUNT, .ECAP, .RSVD34, .RSVD38, .RSVD3C]

theorem writeReg_of_mem_readOnlyRegs {r : Reg} (h : r ∈ readOnlyRegs) (s : State) (v : Word) : s.writeReg r v = s := by
  cases r with
  | CMD | A | B | N_LO | N_HI => simp [readOnlyRegs] at h
  | STATUS | R_LO | R_HI | REM_ACC | SIZE_LO | SIZE_HI | ECOUNT | ECAP | RSVD34 | RSVD38 | RSVD3C => rfl

/-- Settles O13: a write at an operand register's offset gives it the value, and the ignored offsets are those of the
read-only registers. -/
theorem hostWritesReachOnlyOperandRegisters : Obligations.HostWritesReachOnlyOperandRegisters := by
  intro s off v ops h
  refine ⟨?_, ?_, ?_, ?_, fun hoff => ?_⟩
  · rintro rfl; exact step_hostWrite (r := .A) h
  · rintro rfl; exact step_hostWrite (r := .B) h
  · rintro rfl; exact step_hostWrite (r := .N_LO) h
  · rintro rfl; exact step_hostWrite (r := .N_HI) h
  · have hmem : off ∈ readOnlyRegs.map regOffset := hoff
    obtain ⟨r, hr, rfl⟩ := List.mem_map.mp hmem
    rw [step_hostWrite h, writeReg_of_mem_readOnlyRegs hr]

/-! ### The accesses that the port does not admit (20_memory.md R51, R52) -/

/-- An offset of the window is reached at its address. -/
theorem windowOffset_regBase_add (s : State) (h : off < 0x40) : windowOffset s (s.regBase + off) = some off := by
  unfold windowOffset
  rw [if_pos ⟨by omega, by omega⟩, Nat.add_sub_cancel_left]

theorem hostAccess_of_ne_w32 {w : AccessWidth} (hr : s.resetPin = false) (hw : w ≠ .w32) (addr : Nat) (k : Reg → State) :
    hostAccess s w addr k = .refused .accessWidth := by
  simp [hostAccess, hr, hw]

theorem hostAccess_of_misaligned (hr : s.resetPin = false) (hlt : off < 0x40) (hoff : off % 4 ≠ 0) (k : Reg → State) :
    hostAccess s .w32 (s.regBase + off) k = .refused .misaligned := by
  have hreg : regAt off = none := Option.not_isSome_iff_eq_none.mp ((regAt_isSome_iff hlt).not.mpr hoff)
  simp [hostAccess, hr, windowOffset_regBase_add s hlt, hreg]

/-- A read or a write issued is an access of the port at its width and address. -/
theorem step_eq_hostAccess {w : AccessWidth} {addr : Nat} {v : Word} {op : HostOp}
    (hop : op = .read w addr ∨ op = .write w addr v) (h : HostIssues s op ops) :
    ∃ k, step s = hostAccess (issued s ops) w addr k := by
  have hq : (popTurn s).hostQueue = op :: ops := h.2.2
  rw [step_of_hostIssues h, ← dequeue_popTurn h]
  obtain rfl | rfl := hop
  · exact ⟨(popTurn s).dequeue.hostRead, by simp only [hostStep, hq]⟩
  · exact ⟨(popTurn s).dequeue.writeReg (v := v), by simp only [hostStep, hq]⟩

/-- Settles O15: the port refuses the access that the step is. -/
theorem narrowOrMisalignedAccessIsRefused : Obligations.NarrowOrMisalignedAccessIsRefused := by
  intro s w off v op ops hlt hop h
  obtain ⟨k, hk⟩ := step_eq_hostAccess hop h
  have hr : (issued s ops).resetPin = false := h.2.1
  rw [hk]
  constructor
  · intro hw
    exact hostAccess_of_ne_w32 hr hw _ k
  · rintro rfl hoff
    exact hostAccess_of_misaligned hr hlt hoff k

end Sys2Proof.Machine

/-! ### The command words and the rows of the opcode map (30_encoding.md R75) -/

namespace Sys2Proof.Machine

/-- A word decodes to a command iff it is the command's word. -/
theorem decode_eq_ok_iff {w : Word} {i : Instr} : decode w = .ok i ↔ encode i = w := by
  constructor
  · intro h
    rw [encode, fields_of_decodeFields h, packFields_fieldsOf]
  · rintro rfl
    exact decode_encode i

/-- The mask of a row whose command takes IMM8 clears that field and keeps the others (R71, R72). -/
theorem packFields_and_immMask (f : CmdFields) : packFields f &&& 0xFFFFFF00 = packFields { f with imm8 := 0 } := by
  have hmask : (0xFFFFFF00 : Word) = BitVec.allOnes 24 ++ 0#8 := by decide
  rw [packFields, hmask, BitVec.and_append, BitVec.and_allOnes, BitVec.and_zero]
  rfl

/-- The row of a command without an operand is selected by the one word of its pattern. -/
theorem selects_fullMask_iff {mnemonic : String} {v w : Word} :
    (OpcodeRow.mk mnemonic v 0xFFFFFFFF).selects w = true ↔ v = w := by
  have hmask : (0xFFFFFFFF : Word) = BitVec.allOnes 32 := rfl
  rw [OpcodeRow.selects, hmask, BitVec.and_allOnes, beq_iff_eq, eq_comm]

/-- The row of a command with an operand is selected by the words of its OPC with RSVD = 0, whatever their byte. -/
theorem selects_immMask_iff {mnemonic : String} {o : Byte} {w : Word} :
    (OpcodeRow.mk mnemonic (packFields ⟨o, 0, 0⟩) 0xFFFFFF00).selects w = true ↔
      ∃ imm, packFields ⟨o, 0, imm⟩ = w := by
  constructor
  · intro h
    have hpack : packFields { fieldsOf w with imm8 := 0 } = packFields ⟨o, 0, 0⟩ := by
      rw [← packFields_and_immMask, packFields_fieldsOf]
      exact beq_iff_eq.mp h
    have hfields := congrArg fieldsOf hpack
    simp only [fieldsOf_packFields, CmdFields.mk.injEq, and_true] at hfields
    obtain ⟨hopc, hrsvd⟩ := hfields
    exact ⟨(fieldsOf w).imm8, by rw [← hopc, ← hrsvd]; exact packFields_fieldsOf w⟩
  · rintro ⟨imm, rfl⟩
    exact Laws.TableRow.selects_pack mnemonic o imm

/-- The word of a command selects the command's row, a row of the map. -/
theorem encode_selects_row (i : Instr) : Laws.TableRow.Statement i := by
  cases i with
  | clrErr => exact Laws.TableRow.clrErr
  | remLoad => exact Laws.TableRow.remLoad
  | remByte imm => exact Laws.TableRow.remByte imm
  | remWord => exact Laws.TableRow.remWord
  | clMul => exact Laws.TableRow.clMul
  | modMul => exact Laws.TableRow.modMul
  | modExp => exact Laws.TableRow.modExp
  | scrcBegin => exact Laws.TableRow.scrcBegin
  | scrcEntry imm => exact Laws.TableRow.scrcEntry imm
  | scrcFinish => exact Laws.TableRow.scrcFinish
  | sremFinish => exact Laws.TableRow.sremFinish

/-- The words that select the row of a command are the words of the commands of that row. -/
theorem row_selects_iff {i : Instr} {w : Word} : i.row.selects w = true ↔ ∃ j, encode j = w ∧ j.row = i.row := by
  constructor
  · intro h
    cases i with
    | remByte _ =>
      obtain ⟨imm, hw⟩ := selects_immMask_iff (o := 0x11).mp h
      exact ⟨.remByte imm, hw, rfl⟩
    | scrcEntry _ =>
      obtain ⟨imm, hw⟩ := selects_immMask_iff (o := 0x31).mp h
      exact ⟨.scrcEntry imm, hw, rfl⟩
    | clrErr | remLoad | remWord | clMul | modMul | modExp | scrcBegin | scrcFinish | sremFinish =>
      exact ⟨_, selects_fullMask_iff.mp h, rfl⟩
  · rintro ⟨j, rfl, hrow⟩
    rw [← hrow]
    exact (encode_selects_row j).2

/-- Every row of the map is the row of a command. -/
theorem exists_row_of_mem_opcodeTable {r : OpcodeRow} (h : r ∈ opcodeTable) : ∃ i : Instr, i.row = r := by
  have hmap : opcodeTable = ([.clrErr, .remLoad, .remByte 0, .remWord, .clMul, .modMul, .modExp, .scrcBegin,
    .scrcEntry 0, .scrcFinish, .sremFinish] : List Instr).map Instr.row := rfl
  rw [hmap] at h
  obtain ⟨i, -, hi⟩ := List.mem_map.mp h
  exact ⟨i, hi⟩

/-- R75: a word selects a row of the map iff it decodes to a command of the row. -/
theorem selects_iff_decode {r : OpcodeRow} (h : r ∈ opcodeTable) (w : Word) :
    r.selects w = true ↔ ∃ i, decode w = .ok i ∧ i.row = r := by
  obtain ⟨i, rfl⟩ := exists_row_of_mem_opcodeTable h
  simp only [decode_eq_ok_iff]
  exact row_selects_iff

/-- Settles O3: a row selected is the row of the command decoded, and a word decodes to one command. -/
theorem wordSelectsTheRowItDecodesTo : Obligations.WordSelectsTheRowItDecodesTo := by
  refine ⟨fun w r hr => selects_iff_decode hr w, fun w r hr r' hr' hsel hsel' => ?_⟩
  obtain ⟨i, hi, rfl⟩ := (selects_iff_decode hr w).mp hsel
  obtain ⟨j, hj, rfl⟩ := (selects_iff_decode hr' w).mp hsel'
  rw [Except.ok.inj (hi.symm.trans hj)]

/-- Settles O6: the legal words are the words of their commands, and each illegal one fails a test of R76. -/
theorem wordsOfTheMapDecode : Obligations.WordsOfTheMapDecode := by
  refine ⟨decode_encode .clrErr, decode_encode .remLoad, decode_encode (.remByte 0x9A), decode_encode .modExp,
    decode_encode (.scrcEntry 0xFF), decode_encode .sremFinish, ?_, ?_, ?_⟩
  · decide
  · decide
  · decide

end Sys2Proof.Machine

/-! ### The polling loop of `wait` (30_encoding.md R80) -/

namespace Sys2Proof.Machine

/-- A poll of STATUS puts the loop back at the head of the queue iff a command is pending. -/
theorem hostPoll_status (s : State) :
    s.hostPoll .STATUS = { s with
      hostQueue := if s.pend.isSome then .wait :: s.hostQueue else s.hostQueue
      readLog := s.status :: s.readLog } := by
  have hbit : (s.readReg .STATUS).getLsbD 0 = s.pend.isSome := s.status_bit0
  rw [State.hostPoll, hbit]
  split <;> rfl

/-- Settles O18: a turn of `wait` is a poll of STATUS once the access has left the queue. -/
theorem waitPollsStatusUntilIdle : Obligations.WaitPollsStatusUntilIdle := by
  intro s ops h
  rw [step_hostWait h, hostPoll_status]
  rfl

end Sys2Proof.Machine

/-! ### The remainder commands (40_remainder.md R103 to R105) -/

namespace Sys2Proof.Machine

open Polynomial Sys2Proof.Reference

variable {s : State} {p : Pending} {i : Instr} {bytes : List Byte}

/-- After a leading window, a command that feeds bytes moves the accumulator over them. -/
theorem exec_of_remFeedRule_of_remValid (hi : ruleOf i p = remFeedRule bytes) (hp : s.pend = some p)
    (hvalid : s.remValid = true) :
    exec i s = .next { s with remAcc := bytes.foldl remstep8 s.remAcc, pend := none } := by
  have hrule : ruleOf i p s = .ok (s.setRemAcc (bytes.foldl remstep8 s.remAcc)) := by
    rw [hi, remFeedRule, if_pos hvalid]
  rw [exec_eq_complete, State.complete_ok hp hrule]
  rfl

/-- Before a leading window, a command that feeds bytes raises E_REM_SHORT. -/
theorem exec_of_remFeedRule_of_not_remValid (hi : ruleOf i p = remFeedRule bytes) (hp : s.pend = some p)
    (hvalid : s.remValid = false) :
    exec i s = .next { s with err := true, errCode := if s.err then s.errCode else 3, pend := none } := by
  have hrule : ruleOf i p s = .error .remShort := by
    rw [hi, remFeedRule, hvalid]
    rfl
  rw [exec_eq_complete, State.complete_error hp hrule, State.raiseError_eq]
  rfl

/-- Settles O28: the byte is a sequence of one, and its remainder is that of the bytes fed. -/
theorem remByteTakesOneByte : Obligations.RemByteTakesOneByte := by
  intro s p imm hp hvalid
  refine ⟨_, exec_of_remFeedRule_of_remValid (bytes := [imm]) rfl hp hvalid, ?_⟩
  rw [wordPoly_foldl_remstep8]
  simp [bytesPoly]

/-- Settles O29: the bytes fed are those of the snapshot's A, which as a polynomial are A itself. -/
theorem remWordTakesFourBytes : Obligations.RemWordTakesFourBytes := by
  intro s p hp hvalid
  refine ⟨_, exec_of_remFeedRule_of_remValid (bytes := be32 p.a) rfl hp hvalid, ?_⟩
  rw [wordPoly_foldl_remstep8, bytesPoly_be32]
  rfl

/-- Settles O27: the rule of REM_LOAD never fails, and its window is `remload` of the snapshot's A. -/
theorem remLoadTakesTheLeadingWindow : Obligations.RemLoadTakesTheLeadingWindow := by
  intro s p hp
  rw [exec_eq_complete]
  exact State.complete_ok hp (rule := remLoadRule) rfl

/-- Settles O30: both commands feed bytes, so both are refused before a leading window. -/
theorem remFeedBeforeLoadRaisesRemShort : Obligations.RemFeedBeforeLoadRaisesRemShort := fun _ p imm hp hvalid =>
  ⟨exec_of_remFeedRule_of_not_remValid (bytes := [imm]) rfl hp hvalid,
    exec_of_remFeedRule_of_not_remValid (bytes := be32 p.a) rfl hp hvalid⟩

end Sys2Proof.Machine

/-! ### The carry-less product (41_clmul.md R120, R121) -/

namespace Sys2Proof.Machine

open Sys2Proof.Reference

/-- CLMUL completes, with the carry-less product of the snapshot's operands split over R (R121). -/
theorem exec_clMul {s : State} {p : Pending} (hp : s.pend = some p) :
    exec .clMul s = .next { s with rHi := hi32 (clmul p.a p.b), rLo := lo32 (clmul p.a p.b), pend := none } := by
  rw [exec_eq_complete]
  exact State.complete_ok hp (rule := clMulRule) rfl

/-- The top bit of the product's high half is bit 63 of the product. -/
theorem hi32_clmul_getLsbD_31 (a b : Word) : (hi32 (clmul a b)).getLsbD 31 = false := by
  rw [hi32, BitVec.getLsbD_extractLsb', clmul_getLsbD_63, Bool.and_false]

/-- Settles O33: R_HI and R_LO are the two halves of `clmul`, which is the product of the snapshot's operands as
polynomials and has bit 63 clear. -/
theorem clMulWritesTheProduct : Obligations.ClMulWritesTheProduct := by
  intro s p hp
  refine ⟨_, _, exec_clMul hp, ?_, hi32_clmul_getLsbD_31 p.a p.b⟩
  rw [hi32_append_lo32, wordPoly_clmul]

end Sys2Proof.Machine

/-! ### The ring commands (42_modular.md R134, R135) -/

namespace Sys2Proof.Machine

open Sys2Proof.Reference

/-- A command whose rule writes one word to R completes, and changes nothing else but PEND. -/
theorem exec_of_ruleOf_setR32 {i : Instr} {s : State} {p : Pending} {w : Word} (hp : s.pend = some p)
    (hi : ruleOf i p s = .ok (s.setR32 w)) : exec i s = .next { s with rHi := 0, rLo := w, pend := none } := by
  rw [exec_eq_complete]
  exact State.complete_ok hp hi

/-- Settles O35: R_LO is `modmul` of the snapshot's A and B, which is the ring product (R131). -/
theorem modMulWritesTheRingProduct : Obligations.ModMulWritesTheRingProduct := fun _ p hp =>
  ⟨modmul p.a p.b, exec_of_ruleOf_setR32 hp rfl, wordPoly_modmul p.a p.b⟩

/-- Settles O36: R_LO is `modexp` of the snapshot's A and N, which is the ring power for every base and exponent
(R133). -/
theorem modExpWritesTheRingPower : Obligations.ModExpWritesTheRingPower := fun _ p hp =>
  ⟨modexp p.a p.exponent, exec_of_ruleOf_setR32 hp rfl, wordPoly_modexp p.a p.exponent⟩

end Sys2Proof.Machine

/-! ### The session commands (43_sparse_crc.md R156 to R159) -/

namespace Sys2Proof.Machine

open Sys2Proof.Reference

variable {s : State} {p : Pending} {i : Instr} {imm : Byte}

/-- A command whose rule raises an error completes with the error's record, and changes nothing else but PEND. -/
theorem exec_of_ruleOf_error {e : ErrorCode} (hp : s.pend = some p) (hr : ruleOf i p s = .error e) :
    exec i s = .next { s with err := true, errCode := if s.err then s.errCode else e.code, pend := none } := by
  rw [exec_eq_complete, State.complete_error hp hr, State.raiseError_eq]

/-! ### The rule of SCRC_ENTRY, one lemma per outcome (R157), in the order of 60_exceptions.md R205 -/

theorem scrcEntryRule_of_closed (hclosed : s.scrcOpen = false) : scrcEntryRule imm p s = .error .scrcClosed :=
  if_pos hclosed

theorem scrcEntryRule_of_size_le (hopen : s.scrcOpen = true) (hle : s.size ≤ p.n) :
    scrcEntryRule imm p s = .error .range := by
  rw [scrcEntryRule, if_neg (by simp [hopen]), if_pos hle]

theorem scrcEntryRule_of_full (hopen : s.scrcOpen = true) (hlt : p.n < s.size)
    (hfull : EntryBuffer.holds p.position s.eb = false ∧ s.ecount = s.ecap) :
    scrcEntryRule imm p s = .error .capacity := by
  rw [scrcEntryRule, if_neg (by simp [hopen]), if_neg (BitVec.not_le.mpr hlt), if_pos hfull]

theorem scrcEntryRule_of_room (hopen : s.scrcOpen = true) (hlt : p.n < s.size)
    (hroom : ¬ (EntryBuffer.holds p.position s.eb = false ∧ s.ecount = s.ecap)) :
    scrcEntryRule imm p s = .ok (s.putEntry p.position imm) := by
  rw [scrcEntryRule, if_neg (by simp [hopen]), if_neg (BitVec.not_le.mpr hlt), if_neg hroom]

theorem EntryBuffer.holds_eq_false_iff {q : Nat} {eb : EntryBuffer} :
    EntryBuffer.holds q eb = false ↔ EntryBuffer.lookup q eb = none := by
  rw [EntryBuffer.holds, Option.isSome_eq_false_iff, Option.isNone_iff_eq_none]

/-- What `put` adds to the count, said of the position's byte. -/
theorem EntryBuffer.length_put_eq_ite_lookup {q : Nat} {v : Byte} {eb : EntryBuffer} (h : EntryBuffer.wf eb) :
    (EntryBuffer.put q v eb).length = if EntryBuffer.lookup q eb = none then eb.length + 1 else eb.length := by
  rw [EntryBuffer.length_put h, EntryBuffer.holds]
  cases EntryBuffer.lookup q eb <;> simp

/-- Settles O41: the rule takes its last branch, and the buffer it leaves is `put` of the old one. -/
theorem scrcEntryStoresTheByte : Obligations.ScrcEntryStoresTheByte := by
  intro s p imm hinv hp hopen hlt hroom
  have hnotFull : ¬ (EntryBuffer.holds p.position s.eb = false ∧ s.ecount = s.ecap) := by
    rw [EntryBuffer.holds_eq_false_iff]
    rintro ⟨hnew, hfull⟩
    exact hroom.elim (absurd hnew) (absurd hfull)
  refine ⟨EntryBuffer.put p.position imm s.eb, ?_, EntryBuffer.wf_put hinv.ebRising,
    fun q => EntryBuffer.lookup_put hinv.ebRising, EntryBuffer.length_put_eq_ite_lookup hinv.ebRising⟩
  rw [exec_eq_complete]
  exact State.complete_ok hp (scrcEntryRule_of_room hopen hlt hnotFull)

/-- Settles O42: one error of the rule per clause, each recorded as every error is. -/
theorem scrcEntryRaisesItsFirstError : Obligations.ScrcEntryRaisesItsFirstError := fun _ _ imm hp =>
  ⟨fun hclosed => exec_of_ruleOf_error (i := .scrcEntry imm) hp (scrcEntryRule_of_closed hclosed),
    fun hopen hle => exec_of_ruleOf_error (i := .scrcEntry imm) hp (scrcEntryRule_of_size_le hopen hle),
    fun hopen hlt hnew hfull => exec_of_ruleOf_error (i := .scrcEntry imm) hp
      (scrcEntryRule_of_full hopen hlt ⟨EntryBuffer.holds_eq_false_iff.mpr hnew, hfull⟩)⟩

/-! ### SCRC_BEGIN and the finishing commands (R156, R158, R159) -/

/-- Settles O40: the rule of SCRC_BEGIN never fails, and its session has the snapshot's N as its size. -/
theorem scrcBeginOpensASession : Obligations.ScrcBeginOpensASession := by
  intro s p hp
  rw [exec_eq_complete]
  exact State.complete_ok hp (rule := scrcBeginRule) rfl

/-- In an open session a finishing command writes its result of SIZE and EB, and closes the session. -/
theorem exec_of_finishRule_of_open {result : Nat → EntryBuffer → Word} (hi : ruleOf i p = finishRule result)
    (hp : s.pend = some p) (hopen : s.scrcOpen = true) :
    exec i s = .next { s with
      rHi := 0, rLo := result s.size.toNat s.eb, eb := [], scrcOpen := false, pend := none } := by
  have hrule : ruleOf i p s = .ok (s.setR32 (result s.size.toNat s.eb)).closeSession := by
    rw [hi, finishRule, if_neg (by simp [hopen])]
  rw [exec_eq_complete, State.complete_ok hp hrule]
  rfl

/-- With no session open a finishing command raises E_SCRC_CLOSED. -/
theorem exec_of_finishRule_of_closed {result : Nat → EntryBuffer → Word} (hi : ruleOf i p = finishRule result)
    (hp : s.pend = some p) (hclosed : s.scrcOpen = false) :
    exec i s = .next { s with err := true, errCode := if s.err then s.errCode else 4, pend := none } :=
  exec_of_ruleOf_error (e := .scrcClosed) hp (by rw [hi]; exact if_pos hclosed)

/-- Settles O43: the result is `crcSparse` of SIZE and EB, which the invariant keeps canonical and below SIZE (R155). -/
theorem scrcFinishWritesTheCrc32 : Obligations.ScrcFinishWritesTheCrc32 := by
  intro s p hinv hp hopen
  rw [exec_of_finishRule_of_open (result := crcSparse) rfl hp hopen, crcSparse_eq_crc32Ref hinv.ebRising hinv.ebInSize]

/-- Settles O44: the result is `combined` of SIZE and EB, which the invariant keeps canonical and below SIZE (R153). -/
theorem sremFinishWritesTheRemainder : Obligations.SremFinishWritesTheRemainder := fun _ _ hinv hp hopen =>
  ⟨_, exec_of_finishRule_of_open (result := combined) rfl hp hopen, wordPoly_combined hinv.ebRising hinv.ebInSize⟩

/-- Settles O45: both commands finish a session, so both are refused without one. -/
theorem finishWithoutSessionRaisesScrcClosed : Obligations.FinishWithoutSessionRaisesScrcClosed := by
  rintro s p i hp hclosed (rfl | rfl)
  · exact exec_of_finishRule_of_closed (result := crcSparse) rfl hp hclosed
  · exact exec_of_finishRule_of_closed (result := combined) rfl hp hclosed

end Sys2Proof.Machine

/-! ### A turn of the engine (44_control.md R183, R184) -/

namespace Sys2Proof.Machine

open Sys2Proof.Reference

variable {s t u : State} {p : Pending} {i : Instr}

/-- A step at the engine's turn is the engine's step, once the turn is used up. -/
theorem step_of_engineTurn (turn : nextTurn s = .engine) : step s = engineStep (popTurn s) := by
  rw [step, turn, runTurn]

theorem engineStep_of_pend_none (hp : s.pend = none) : engineStep s = .next s := by
  simp only [engineStep, hp]

theorem engineStep_of_decode_error {e : IllegalWord} (hp : s.pend = some p) (hd : decode p.cmd = .error e) :
    engineStep s = .next (s.raiseError .illegal) := by
  simp only [engineStep, hp, hd]

theorem engineStep_of_decode_ok (hp : s.pend = some p) (hd : decode p.cmd = .ok i) : engineStep s = exec i s := by
  simp only [engineStep, hp, hd]

/-- A command that answers a next state leaves the pending slot free. -/
theorem exec_pend (h : exec i s = .next t) : t.pend = none := by
  rw [exec_eq_complete] at h
  obtain ⟨p, -, ⟨u, -, rfl⟩ | ⟨e, -, rfl⟩⟩ := State.complete_cases h
  · exact State.retire_pend u
  · exact State.raiseError_pend s e

/-- With a word pending, legal or not, the engine's step completes it. -/
theorem exists_engineStep_of_pend (hp : s.pend = some p) : ∃ t, engineStep s = .next t ∧ t.pend = none := by
  cases hd : decode p.cmd with
  | error e => exact ⟨_, engineStep_of_decode_error hp hd, State.raiseError_pend s .illegal⟩
  | ok i =>
    obtain ⟨t, ht⟩ := exec_next i hp
    exact ⟨t, (engineStep_of_decode_ok hp hd).trans ht, exec_pend ht⟩

/-- What no step of the engine touches: what no completion touches. -/
theorem engineStep_frame (h : engineStep s = .next t) :
    t.a = s.a ∧ t.b = s.b ∧ t.nLo = s.nLo ∧ t.nHi = s.nHi ∧ t.ecap = s.ecap ∧ t.regBase = s.regBase ∧
      t.resetPin = s.resetPin ∧ t.hostQueue = s.hostQueue ∧ t.turns = s.turns ∧ t.readLog = s.readLog := by
  obtain ⟨-, rfl⟩ | ⟨p, e, -, -, rfl⟩ | ⟨p, i, -, -, hx⟩ := engineStep_cases h
  · simp
  · simp
  · exact exec_frame hx

/-- Settles O7: the engine's step at a legal word. -/
theorem stepRunsThePendingCommand : Obligations.StepRunsThePendingCommand := fun _ _ _ turn hp hd =>
  (step_of_engineTurn turn).trans (engineStep_of_decode_ok hp hd)

/-- Settles O8: the engine's step at an illegal word raises E_ILLEGAL. -/
theorem illegalWordRecordsEIllegal : Obligations.IllegalWordRecordsEIllegal := by
  intro s p e turn hp hd
  rw [step_of_engineTurn turn, engineStep_of_decode_error (s := popTurn s) hp hd, State.raiseError_eq]
  rfl

/-- Settles O9: the engine's step completes the pending word, and the frame keeps the host's side and the turns left. -/
theorem acceptedCommandCompletes : Obligations.AcceptedCommandCompletes := by
  refine ⟨fun s p turn hp => ?_, fun s p hts hp => ?_⟩
  · obtain ⟨t, ht, hfree⟩ := exists_engineStep_of_pend (s := popTurn s) hp
    obtain ⟨-, -, -, -, -, -, -, hq, hts, hlog⟩ := engineStep_frame ht
    exact ⟨t, (step_of_engineTurn turn).trans ht, hfree, hq, hts, hlog⟩
  · simp [nextTurn, State.busy, hts, hp]

/-- Settles O10: a completion and the engine's step, each with nothing pending. -/
theorem nothingCompletesWithoutAPendingCommand : Obligations.NothingCompletesWithoutAPendingCommand :=
  ⟨fun i s hp => (exec_eq_complete i s).trans (State.complete_none hp),
    fun s turn hp => (step_of_engineTurn turn).trans (engineStep_of_pend_none (s := popTurn s) hp)⟩

/-! ### CLRERR (44_control.md R185) -/

/-- Settles O26: the rule of CLRERR never fails, and it clears the record only. -/
theorem clrErrClearsTheRecord : Obligations.ClrErrClearsTheRecord := by
  intro s p hp
  rw [exec_eq_complete]
  exact State.complete_ok hp (rule := clrErrRule) rfl

/-! ### A write to CMD (44_control.md R181, R182) -/

/-- An error recorded, as one record update. -/
theorem State.record_eq (s : State) (e : ErrorCode) :
    s.record e = { s with err := true, errCode := if s.err then s.errCode else e.code } := by
  rw [State.record]
  split
  case isTrue herr => rw [← herr]
  case isFalse => rfl

theorem State.issue_of_pend_none (hp : s.pend = none) (w : Word) : s.issue w = s.accept w := by
  simp [State.issue, State.busy, hp]

theorem State.issue_of_pend_some (hp : s.pend = some p) (w : Word) : s.issue w = s.record .busy := by
  simp [State.issue, State.busy, hp]

/-- Settles O11: the write is an issue, and with nothing pending an issue is an acceptance. -/
theorem cmdWriteWhileIdleIsAccepted : Obligations.CmdWriteWhileIdleIsAccepted := by
  intro s w ops h hp
  have hwrite : step s = .next ((issued s ops).issue w) := step_hostWrite (r := .CMD) h
  rw [hwrite, State.issue_of_pend_none (s := issued s ops) hp]
  rfl

/-- Settles O12: the write is an issue, and with a command pending an issue only records E_BUSY. -/
theorem cmdWriteWhileBusyIsDropped : Obligations.CmdWriteWhileBusyIsDropped := by
  intro s p w ops h hp
  have hwrite : step s = .next ((issued s ops).issue w) := step_hostWrite (r := .CMD) h
  rw [hwrite, State.issue_of_pend_some (s := issued s ops) hp, State.record_eq]
  rfl

/-! ### Writes to the operand registers around a completion (44_control.md R187) -/

/-- The state with another host queue and other turns to come. -/
def State.withSchedule (s : State) (q : List HostOp) (ts : List Turn) : State := { s with hostQueue := q, turns := ts }

/-- No rule reads the host's queue or the turns: with others there, it gives the same result beside them. -/
theorem ruleOf_withSchedule (i : Instr) (p : Pending) (s : State) (q : List HostOp) (ts : List Turn) :
    ruleOf i p (s.withSchedule q ts) = (ruleOf i p s).map (·.withSchedule q ts) := by
  cases i with
  | remByte | remWord => simp only [ruleOf, remFeedRule, apply_ite (Except.map _)]; rfl
  | scrcEntry imm => simp only [ruleOf, scrcEntryRule, apply_ite (Except.map _)]; rfl
  | scrcFinish | sremFinish => simp only [ruleOf, finishRule, apply_ite (Except.map _)]; rfl
  | clrErr | remLoad | clMul | modMul | modExp | scrcBegin => rfl

theorem State.raiseError_withSchedule (s : State) (q : List HostOp) (ts : List Turn) (e : ErrorCode) :
    (s.withSchedule q ts).raiseError e = (s.raiseError e).withSchedule q ts := by
  simp only [State.raiseError_eq, State.withSchedule]

/-- The completion of a command beside another queue and other turns. -/
theorem exec_withSchedule (h : exec i s = .next t) (q : List HostOp) (ts : List Turn) :
    exec i (s.withSchedule q ts) = .next (t.withSchedule q ts) := by
  rw [exec_eq_complete] at h ⊢
  obtain ⟨p, hp, ⟨u, hr, rfl⟩ | ⟨e, hr, rfl⟩⟩ := State.complete_cases h
  · exact State.complete_ok (t := u.withSchedule q ts) hp (by rw [ruleOf_withSchedule, hr]; rfl)
  · rw [← State.raiseError_withSchedule]
    exact State.complete_error hp (by rw [ruleOf_withSchedule, hr]; rfl)

/-- A change of the state that leaves PEND and that raising E_ILLEGAL and completing commute with: the engine's step
commutes with it too. -/
theorem engineStep_of_commutes {f : State → State} (hpend : (f s).pend = s.pend)
    (hraise : (f s).raiseError .illegal = f (s.raiseError .illegal))
    (hexec : ∀ i t, exec i s = .next t → exec i (f s) = .next (f t)) (h : engineStep s = .next t) :
    engineStep (f s) = .next (f t) := by
  obtain ⟨hp, rfl⟩ | ⟨p, e, hp, hd, rfl⟩ | ⟨p, i, hp, hd, hx⟩ := engineStep_cases h
  · exact engineStep_of_pend_none (hpend.trans hp)
  · rw [engineStep_of_decode_error (hpend.trans hp) hd, hraise]
  · rw [engineStep_of_decode_ok (hpend.trans hp) hd, hexec i t hx]

/-- The engine's step reads neither the host's queue nor the turns left. -/
theorem engineStep_withSchedule (h : engineStep s = .next t) (q : List HostOp) (ts : List Turn) :
    engineStep (s.withSchedule q ts) = .next (t.withSchedule q ts) :=
  engineStep_of_commutes (f := (·.withSchedule q ts)) rfl (s.raiseError_withSchedule q ts .illegal)
    (fun _ _ hx => exec_withSchedule hx q ts) h

/-- The engine's step does not read the live operand registers. -/
theorem engineStep_withOperands (h : engineStep s = .next t) (a b nLo nHi : Word) :
    engineStep (s.withOperands a b nLo nHi) = .next (t.withOperands a b nLo nHi) :=
  engineStep_of_commutes (f := (·.withOperands a b nLo nHi)) rfl (s.raiseError_withOperands a b nLo nHi .illegal)
    (fun _ _ hx => exec_withOperands hx a b nLo nHi) h

section
variable {r : Reg} (hr : r ∈ [Reg.A, .B, .N_LO, .N_HI])
include hr

/-- A write of an operand register reads as the value written, and leaves PEND and the turns. -/
theorem writeReg_frame_of_operand (s : State) (v : Word) :
    (s.writeReg r v).readReg r = v ∧ (s.writeReg r v).pend = s.pend ∧ nextTurn (s.writeReg r v) = nextTurn s ∧
      popTurn (s.writeReg r v) = (popTurn s).writeReg r v := by
  cases r with
  | A | B | N_LO | N_HI => exact ⟨rfl, rfl, rfl, rfl⟩
  | CMD | STATUS | R_LO | R_HI | REM_ACC | SIZE_LO | SIZE_HI | ECOUNT | ECAP | RSVD34 | RSVD38 | RSVD3C => simp at hr

/-- A write of an operand register gives two states with equal operands the same operands again. -/
theorem writeReg_eq_withOperands_of_operand (v : Word) (ha : t.a = s.a) (hb : t.b = s.b) (hlo : t.nLo = s.nLo)
    (hhi : t.nHi = s.nHi) :
    ∃ a b nLo nHi, s.writeReg r v = s.withOperands a b nLo nHi ∧ t.writeReg r v = t.withOperands a b nLo nHi := by
  cases r with
  | A => exact ⟨v, s.b, s.nLo, s.nHi, rfl, by rw [← hb, ← hlo, ← hhi]; rfl⟩
  | B => exact ⟨s.a, v, s.nLo, s.nHi, rfl, by rw [← ha, ← hlo, ← hhi]; rfl⟩
  | N_LO => exact ⟨s.a, s.b, v, s.nHi, rfl, by rw [← ha, ← hb, ← hhi]; rfl⟩
  | N_HI => exact ⟨s.a, s.b, s.nLo, v, rfl, by rw [← ha, ← hb, ← hlo]; rfl⟩
  | CMD | STATUS | R_LO | R_HI | REM_ACC | SIZE_LO | SIZE_HI | ECOUNT | ECAP | RSVD34 | RSVD38 | RSVD3C => simp at hr

/-- A write of an operand register commutes with the engine's step. -/
theorem engineStep_writeReg_of_operand (h : engineStep s = .next t) (v : Word) :
    engineStep (s.writeReg r v) = .next (t.writeReg r v) := by
  obtain ⟨ha, hb, hlo, hhi, -⟩ := engineStep_frame h
  obtain ⟨a, b, nLo, nHi, hs, ht⟩ := writeReg_eq_withOperands_of_operand hr v ha hb hlo hhi
  rw [hs, ht, engineStep_withOperands h]

end

/-- Settles O20: with `e` what the engine's step makes of `s`, both orders end in the write done to `e`, with the
accesses and turns that are left. -/
theorem operandWritesCommuteWithCompletion : Obligations.OperandWritesCommuteWithCompletion := by
  intro s p r v ops ts hp hpin hr hq
  obtain ⟨e, he, -⟩ := exists_engineStep_of_pend hp
  obtain ⟨-, -, -, -, -, hbase, hpinKept, -⟩ := engineStep_frame he
  obtain ⟨hread, hpend, hturn, hpop⟩ := writeReg_frame_of_operand hr (s.withSchedule ops (.engine :: ts)) v
  refine ⟨(s.withSchedule ops (.engine :: ts)).writeReg r v, e.withSchedule s.hostQueue (.host :: ts),
    (e.withSchedule ops ts).writeReg r v, ?writeFirst, hread, hpend.trans hp, ?thenComplete,
    (writeReg_frame_of_operand hr _ v).1, ?completeFirst, ?thenWrite⟩
  case writeFirst =>
    exact step_hostWrite (s := s.withSchedule s.hostQueue (.host :: .engine :: ts)) ⟨rfl, hpin, hq⟩
  case thenComplete =>
    rw [step_of_engineTurn hturn, hpop]
    exact engineStep_writeReg_of_operand hr (engineStep_withSchedule he ops ts) v
  case completeFirst =>
    exact (step_of_engineTurn (s := s.withSchedule s.hostQueue (.engine :: .host :: ts)) rfl).trans
      (engineStep_withSchedule he _ _)
  case thenWrite =>
    rw [← hbase] at hq
    exact step_hostWrite (s := e.withSchedule s.hostQueue (.host :: ts)) ⟨rfl, hpinKept.trans hpin, hq⟩

/-! ### What each command leaves in the result registers (44_control.md R186) -/

/-- A command that completes leaves its rule's result or its error's record, with the pending slot freed. -/
theorem exec_cases (hp : s.pend = some p) (h : exec i s = .next t) :
    (∃ u, ruleOf i p s = .ok u ∧ t = u.retire) ∨ ∃ e, ruleOf i p s = .error e ∧ t = s.raiseError e := by
  rw [exec_eq_complete] at h
  obtain ⟨p', hp', hcases⟩ := State.complete_cases h
  obtain rfl : p = p' := Option.some.inj (hp.symm.trans hp')
  exact hcases

/-- A rule of no result command leaves R. -/
theorem ruleOf_keeps_r (hi : resultCommand i = false) (h : ruleOf i p s = .ok u) : u.rHi = s.rHi ∧ u.rLo = s.rLo := by
  cases i with
  | remByte | remWord => obtain ⟨-, rfl⟩ := remFeedRule_ok h; exact ⟨rfl, rfl⟩
  | scrcEntry => obtain ⟨-, -, -, rfl⟩ := scrcEntryRule_ok h; exact ⟨rfl, rfl⟩
  | clrErr | remLoad | scrcBegin => cases h; exact ⟨rfl, rfl⟩
  | clMul | modMul | modExp | scrcFinish | sremFinish => cases hi

/-- A rule of no remainder command leaves REM_ACC and REM_VALID. -/
theorem ruleOf_keeps_remainder (hi : remainderCommand i = false) (h : ruleOf i p s = .ok u) :
    u.remAcc = s.remAcc ∧ u.remValid = s.remValid := by
  cases i with
  | scrcEntry => obtain ⟨-, -, -, rfl⟩ := scrcEntryRule_ok h; exact ⟨rfl, rfl⟩
  | scrcFinish | sremFinish => obtain ⟨-, rfl⟩ := finishRule_ok h; exact ⟨rfl, rfl⟩
  | clrErr | clMul | modMul | modExp | scrcBegin => cases h; exact ⟨rfl, rfl⟩
  | remLoad | remByte | remWord => cases hi

/-- An error leaves R, REM_ACC and REM_VALID. -/
theorem State.raiseError_results (s : State) (e : ErrorCode) :
    (s.raiseError e).rHi = s.rHi ∧ (s.raiseError e).rLo = s.rLo ∧ (s.raiseError e).remAcc = s.remAcc :=
  ⟨s.raiseError_rHi e, s.raiseError_rLo e, s.raiseError_remAcc e⟩

/-- A command that is no result command leaves R, with an error or without. -/
theorem exec_keeps_r (hi : resultCommand i = false) (hp : s.pend = some p) (h : exec i s = .next t) :
    t.rHi = s.rHi ∧ t.rLo = s.rLo := by
  obtain ⟨u, hr, rfl⟩ | ⟨e, -, rfl⟩ := exec_cases hp h
  · exact ruleOf_keeps_r (u := u) hi hr
  · exact ⟨s.raiseError_rHi e, s.raiseError_rLo e⟩

/-- A command that is no remainder command leaves REM_ACC and REM_VALID, with an error or without. -/
theorem exec_keeps_remainder (hi : remainderCommand i = false) (hp : s.pend = some p) (h : exec i s = .next t) :
    t.remAcc = s.remAcc ∧ t.remValid = s.remValid := by
  obtain ⟨u, hr, rfl⟩ | ⟨e, -, rfl⟩ := exec_cases hp h
  · exact ruleOf_keeps_remainder (u := u) hi hr
  · exact ⟨s.raiseError_remAcc e, s.raiseError_remValid e⟩

/-- A command after which ERR is newly set raised an error. -/
theorem exec_raiseError_of_err (hp : s.pend = some p) (h : exec i s = .next t) (hs : s.err = false)
    (ht : t.err = true) : ∃ e, t = s.raiseError e := by
  obtain ⟨u, hr, rfl⟩ | ⟨e, -, rfl⟩ := exec_cases hp h
  · obtain ⟨hkept, -⟩ | ⟨-, hclear, -⟩ := ruleOf_record hr
    · cases ht.symm.trans (hkept.trans hs)
    · cases ht.symm.trans hclear
  · exact ⟨e, rfl⟩

/-- Settles O57: what a command may not write is kept by its rule and by an error alike, and what it writes stands in
the state that its completion is known to leave. -/
theorem resultRegisterPolicy : Obligations.ResultRegisterPolicy := by
  refine ⟨fun i s t p hp h => ?_, fun s p e turn hp hd => ?_⟩
  · have hpost {u : State} (hu : exec i s = .next u) : t = u := Host.Outcome.next.inj (h.symm.trans hu)
    refine ⟨fun hi => exec_keeps_r hi hp h, fun hi => exec_keeps_remainder hi hp h, ?remLoad, ?remByte, ?remWord,
      ?clMul, ?modMul, ?modExp, ?scrcFinish, ?sremFinish, ?feedBeforeLoad, ?finishWithoutSession, ?raised⟩
    case remLoad =>
      rintro rfl
      exact hpost (remLoadTakesTheLeadingWindow s p hp) ▸ rfl
    case remByte =>
      rintro imm rfl hvalid
      exact hpost (exec_of_remFeedRule_of_remValid (bytes := [imm]) rfl hp hvalid) ▸ rfl
    case remWord =>
      rintro rfl hvalid
      exact hpost (exec_of_remFeedRule_of_remValid (bytes := be32 p.a) rfl hp hvalid) ▸ rfl
    case clMul =>
      rintro rfl
      exact hpost (exec_clMul hp) ▸ hi32_append_lo32 (clmul p.a p.b)
    case modMul =>
      rintro rfl
      exact hpost (exec_of_ruleOf_setR32 hp rfl) ▸ ⟨rfl, rfl⟩
    case modExp =>
      rintro rfl
      exact hpost (exec_of_ruleOf_setR32 hp rfl) ▸ ⟨rfl, rfl⟩
    case scrcFinish =>
      rintro rfl hopen
      exact hpost (exec_of_finishRule_of_open (result := crcSparse) rfl hp hopen) ▸ ⟨rfl, rfl⟩
    case sremFinish =>
      rintro rfl hopen
      exact hpost (exec_of_finishRule_of_open (result := combined) rfl hp hopen) ▸ ⟨rfl, rfl⟩
    case feedBeforeLoad =>
      rintro (⟨imm, rfl⟩ | rfl) hvalid
      · exact hpost (remFeedBeforeLoadRaisesRemShort s p imm hp hvalid).1 ▸ ⟨rfl, rfl, rfl⟩
      · exact hpost (remFeedBeforeLoadRaisesRemShort s p 0 hp hvalid).2 ▸ ⟨rfl, rfl, rfl⟩
    case finishWithoutSession =>
      intro hi hclosed
      exact hpost (finishWithoutSessionRaisesScrcClosed s p i hp hclosed hi) ▸ ⟨rfl, rfl, rfl⟩
    case raised =>
      intro hs ht
      obtain ⟨e, rfl⟩ := exec_raiseError_of_err hp h hs ht
      exact s.raiseError_results e
  · exact ⟨_, (step_of_engineTurn turn).trans (engineStep_of_decode_error hp hd), State.raiseError_results _ _⟩

end Sys2Proof.Machine

/-! ### Errors (60_exceptions.md) -/

namespace Sys2Proof.Machine

variable {s t u : State} {p : Pending} {i : Instr} {imm : Byte} {e : ErrorCode}

/-! #### The record is sticky (R203) -/

theorem State.record_of_not_err (h : s.err = false) : s.record e = { s with err := true, errCode := e.code } :=
  if_neg (by simp [h])

theorem State.record_of_err (h : s.err = true) : s.record e = s := if_pos h

/-- Settles O23: an error recorded over another keeps the first one's code, and of the effects a step can have on the
record only CLRERR's and reset's clear it. -/
theorem firstErrorIsKeptUntilCleared : Obligations.FirstErrorIsKeptUntilCleared := by
  refine ⟨fun _ _ => State.record_of_not_err, fun _ _ => State.record_of_err, fun s t hs h => ?_⟩
  obtain ⟨herr, hcode⟩ | ⟨e, herr, hcode, -⟩ | ⟨-, -, hcleared⟩ := (stepEffect_of_step h).record
  · exact .inl ⟨herr.trans hs, hcode⟩
  · exact .inl ⟨herr, hcode.trans (if_pos hs)⟩
  · exact .inr hcleared

/-! #### A command that raises an error (R204) -/

/-- No rule that succeeds sets ERR. -/
theorem ruleOf_ok_err (h : ruleOf i p s = .ok u) (hs : s.err = false) : u.err = false := by
  obtain ⟨hkept, -⟩ | ⟨-, hclear, -⟩ := ruleOf_record h
  · exact hkept.trans hs
  · exact hclear

/-- Inversion: a command after which ERR is newly set has a rule that failed, and the rule's error is all it leaves. -/
theorem exists_ruleOf_error_of_err (h : exec i s = .next t) (hs : s.err = false) (ht : t.err = true) :
    ∃ p e, s.pend = some p ∧ ruleOf i p s = .error e ∧ t = s.raiseError e := by
  rw [exec_eq_complete] at h
  obtain ⟨p, hp, ⟨u, hr, rfl⟩ | ⟨e, hr, rfl⟩⟩ := State.complete_cases h
  · cases ht.symm.trans (ruleOf_ok_err (u := u) hr hs)
  · exact ⟨p, e, hp, hr, rfl⟩

/-- Settles O24: the state left is the error raised, whose only writes are the record and PEND. -/
theorem errorsAreAllOrNothing : Obligations.ErrorsAreAllOrNothing := by
  intro i s t hs h ht
  obtain ⟨p, e, -, -, rfl⟩ := exists_ruleOf_error_of_err h hs ht
  rw [State.raiseError_eq]

/-! #### Which rule raises which error (R201, R202) -/

/-- Inversion: the errors of SCRC_ENTRY's rule, each with its condition, in the order of R205. -/
theorem scrcEntryRule_error (h : scrcEntryRule imm p s = .error e) :
    e = .scrcClosed ∧ s.scrcOpen = false ∨
    s.scrcOpen = true ∧ (e = .range ∧ s.size ≤ p.n ∨
      e = .capacity ∧ p.n < s.size ∧ EntryBuffer.lookup p.position s.eb = none ∧ s.ecount = s.ecap) := by
  cases hopen : s.scrcOpen with
  | false =>
    cases h.symm.trans (scrcEntryRule_of_closed hopen)
    exact .inl ⟨rfl, rfl⟩
  | true =>
    refine .inr ⟨rfl, ?_⟩
    by_cases hle : s.size ≤ p.n
    · cases h.symm.trans (scrcEntryRule_of_size_le hopen hle)
      exact .inl ⟨rfl, hle⟩
    have hlt : p.n < s.size := BitVec.not_le.mp hle
    by_cases hfull : EntryBuffer.holds p.position s.eb = false ∧ s.ecount = s.ecap
    · cases h.symm.trans (scrcEntryRule_of_full hopen hlt hfull)
      exact .inr ⟨rfl, hlt, EntryBuffer.holds_eq_false_iff.mp hfull.1, hfull.2⟩
    · cases h.symm.trans (scrcEntryRule_of_room hopen hlt hfull)

/-- Settles O25: the command's rule raised the error, and each command that has a failing rule raises the errors of that
rule, in the states where it does. -/
theorem eachCommandRaisesOnlyItsErrors : Obligations.EachCommandRaisesOnlyItsErrors := by
  intro i s t p hs hp h ht
  obtain ⟨p', e, hp', hr, rfl⟩ := exists_ruleOf_error_of_err h hs ht
  obtain rfl : p = p' := Option.some.inj (hp.symm.trans hp')
  have hcode : (s.raiseError e).errCode = e.code := by simp [hs]
  rw [hcode]
  cases i with
  | remByte imm =>
    obtain ⟨hvalid, rfl⟩ := remFeedRule_error hr
    exact .inl ⟨.inl ⟨imm, rfl⟩, rfl, hvalid⟩
  | remWord =>
    obtain ⟨hvalid, rfl⟩ := remFeedRule_error hr
    exact .inl ⟨.inr rfl, rfl, hvalid⟩
  | scrcFinish =>
    obtain ⟨hclosed, rfl⟩ := finishRule_error hr
    exact .inr (.inl ⟨.inr (.inl rfl), rfl, hclosed⟩)
  | sremFinish =>
    obtain ⟨hclosed, rfl⟩ := finishRule_error hr
    exact .inr (.inl ⟨.inr (.inr rfl), rfl, hclosed⟩)
  | scrcEntry imm =>
    obtain ⟨rfl, hclosed⟩ | ⟨hopen, ⟨rfl, hle⟩ | ⟨rfl, hlt, hnew, hfull⟩⟩ := scrcEntryRule_error hr
    · exact .inr (.inl ⟨.inl ⟨imm, rfl⟩, rfl, hclosed⟩)
    · exact .inr (.inr ⟨⟨imm, rfl⟩, hopen, .inl ⟨rfl, hle⟩⟩)
    · exact .inr (.inr ⟨⟨imm, rfl⟩, hopen, .inr ⟨rfl, hlt, hnew, hfull⟩⟩)
  | clrErr | remLoad | clMul | modMul | modExp | scrcBegin => cases hr

end Sys2Proof.Machine

/-! ### The reset input (70_reset_and_hazards.md R230) -/

namespace Sys2Proof.Machine

variable {s : State} {op : HostOp} {ops : List HostOp}

/-! #### No access while reset is asserted -/

/-- A step at the host's turn is the host's step, once the turn is used up. -/
theorem step_of_hostTurn (turn : nextTurn s = .host) : step s = hostStep (popTurn s) := by
  rw [step, turn, runTurn]

/-- The port looks at the reset input before the width and the address (log 8). -/
theorem hostAccess_of_resetPin (hr : s.resetPin = true) (w : AccessWidth) (addr : Nat) (k : Reg → State) :
    hostAccess s w addr k = .refused .accessDuringReset :=
  if_pos hr

/-- Every access that the host can issue goes through the port. -/
theorem hostStep_of_resetPin (hr : s.resetPin = true) (hq : s.hostQueue = op :: ops) :
    hostStep s = .refused .accessDuringReset := by
  have hport := hostAccess_of_resetPin (s := s.dequeue) hr
  cases op with
  | read w addr => simp only [hostStep, hq]; exact hport w addr _
  | write w addr v => simp only [hostStep, hq]; exact hport w addr _
  | wait => simp only [hostStep, hq]; exact hport .w32 _ _

/-- Settles O17: using up the turn leaves the reset input and the queue, and the port refuses the access. -/
theorem accessDuringResetIsRefused : Obligations.AccessDuringResetIsRefused := by
  intro s op ops turn hr hq
  rw [step_of_hostTurn turn]
  exact hostStep_of_resetPin (s := popTurn s) hr hq

/-! #### The edge that asserts reset -/

/-- A step at a turn of the reset input drives the input, once the turn is used up. -/
theorem step_of_resetTurn {asserted : Bool} (turn : nextTurn s = .resetPin asserted) :
    step s = .next ((popTurn s).driveReset asserted) := by
  rw [step, turn, runTurn]

/-- Asserting reset leaves the block as it is after reset with its own parameters, but for the input, and leaves what is
no state of the block (log 7). -/
theorem State.driveReset_true (s : State) :
    s.driveReset true = { State.resetWith s.ecap s.regBase with
      resetPin := true, hostQueue := s.hostQueue, turns := s.turns, readLog := s.readLog } :=
  rfl

/-- Settles O22: the state left is the reset state with the parameters of the state before. -/
theorem assertingResetClearsTheBlock : Obligations.AssertingResetClearsTheBlock := by
  intro s turn
  refine ⟨_, step_of_resetTurn turn, ?_⟩
  rw [State.driveReset_true]
  exact ⟨rfl, rfl, rfl, rfl, rfl, rfl, rfl, rfl, rfl, rfl, rfl, rfl, rfl, rfl, rfl, rfl, rfl⟩

end Sys2Proof.Machine

/-! ### The words of the commands (30_encoding.md R76 to R78) -/

namespace Sys2Proof

/-- Fields are ill-formed when one of the three tests of R76 fails: a stray IMM8 takes an OPC that is none of the two
with a byte operand. -/
theorem CmdFields.not_wf_iff (f : CmdFields) :
    ¬ f.wf = true ↔ f.rsvd ≠ 0 ∨
      f.opc ∉ ([0x01, 0x10, 0x11, 0x12, 0x20, 0x21, 0x22, 0x30, 0x31, 0x32, 0x33] : List Byte) ∨
      (f.imm8 ≠ 0 ∧ f.opc ≠ 0x11 ∧ f.opc ≠ 0x31) := by
  have hrsvd : f.rsvdClear = true ↔ f.rsvd = 0 := beq_iff_eq
  have hopc : f.opcListed = true ↔
      f.opc ∈ ([0x01, 0x10, 0x11, 0x12, 0x20, 0x21, 0x22, 0x30, 0x31, 0x32, 0x33] : List Byte) := by
    simp only [CmdFields.opcListed, immOpcodes, fixedOpcodes, Bool.or_eq_true, List.contains_iff_mem, List.mem_cons]
    tauto
  have himm : f.immAllowed = true ↔ f.imm8 = 0 ∨ f.opc = 0x11 ∨ f.opc = 0x31 := by
    simp [CmdFields.immAllowed, immOpcodes, or_comm]
  rw [CmdFields.wf, Bool.and_eq_true, Bool.and_eq_true, hrsvd, hopc, himm]
  tauto

end Sys2Proof

namespace Sys2Proof.Machine

/-- Settles O1: the fields of a command's word are the command's, and they decode to it. -/
theorem decodeOfEncodeGivesTheCommandBack : Obligations.DecodeOfEncodeGivesTheCommandBack := decode_encode

/-- Settles O2: the fields of the word decoded are the command's, and a word is the packing of its fields. -/
theorem decodedWordIsTheWordOfItsCommand : Obligations.DecodedWordIsTheWordOfItsCommand :=
  fun _ _ => decode_eq_ok_iff.mp

/-! #### The illegal words -/

theorem decode_eq_error_iff {w : Word} : (∃ e, decode w = .error e) ↔ ¬ ∃ i, decode w = .ok i := by
  cases decode w <;> simp

/-- Settles O4: the decoder refuses the fields that are not well-formed. -/
theorem illegalWordsAreTheIllFormedOnes : Obligations.IllegalWordsAreTheIllFormedOnes := by
  intro w
  rw [decode_eq_error_iff, decode, decodeFields_isOk_iff, CmdFields.not_wf_iff]
  rfl

/-! #### The number of legal words -/

theorem encode_injective : Function.Injective encode := fun i _ h =>
  Except.ok.inj ((decode_encode i).symm.trans (decode_eq_ok_iff.mpr h.symm))

theorem remByte_injective : Function.Injective Instr.remByte := fun _ _ => Instr.remByte.inj

theorem scrcEntry_injective : Function.Injective Instr.scrcEntry := fun _ _ => Instr.scrcEntry.inj

/-- The commands without a byte operand. -/
def fixedInstrs : Finset Instr :=
  {.clrErr, .remLoad, .remWord, .clMul, .modMul, .modExp, .scrcBegin, .scrcFinish, .sremFinish}

theorem mem_fixedInstrs_iff {i : Instr} : i ∈ fixedInstrs ↔ ∀ imm, i ≠ .remByte imm ∧ i ≠ .scrcEntry imm := by
  cases i <;> simp [fixedInstrs]

/-- The words that decode to a command of a kind are as many as the commands of the kind. -/
theorem ncard_words_eq (P : Instr → Prop) : { w | ∃ i, decode w = .ok i ∧ P i }.ncard = { i | P i }.ncard := by
  rw [← Set.ncard_image_of_injective _ encode_injective]
  congr 1
  ext w
  simp only [decode_eq_ok_iff, Set.mem_ofPred_eq, Set.mem_image, and_comm]

theorem natCard_bitVec (n : Nat) : Nat.card (BitVec n) = 2 ^ n := by
  rw [Nat.card_congr BitVec.equivFin.toEquiv, Nat.card_fin]

theorem ncard_range_of_byte {α : Type} {f : Byte → α} (hf : Function.Injective f) : (Set.range f).ncard = 256 := by
  rw [← Nat.card_coe_set_eq, Nat.card_range_of_injective hf, natCard_bitVec]
  rfl

/-- The words of a command with a byte operand are as many as the bytes. -/
theorem ncard_words_of_byte {f : Byte → Instr} (hf : Function.Injective f) :
    { w | ∃ imm, decode w = .ok (f imm) }.ncard = 256 := by
  simp only [decode_eq_ok_iff]
  exact ncard_range_of_byte (encode_injective.comp hf)

theorem ncard_fixedInstrs : (fixedInstrs : Set Instr).ncard = 9 := by
  rw [Set.ncard_coe_finset]
  rfl

/-- The commands are the fixed ones and, apart from these and from each other, those of either byte operand. -/
theorem ncard_univ_instr : (Set.univ : Set Instr).ncard = 521 := by
  have hcover : (Set.univ : Set Instr) = ↑fixedInstrs ∪ (Set.range Instr.remByte ∪ Set.range Instr.scrcEntry) := by
    ext i
    cases i <;> simp [fixedInstrs]
  have hbytes : Disjoint (Set.range Instr.remByte) (Set.range Instr.scrcEntry) := by
    rw [Set.disjoint_left]
    rintro _ ⟨imm, rfl⟩ ⟨imm', h⟩
    cases h
  have hfixed : Disjoint (↑fixedInstrs : Set Instr) (Set.range Instr.remByte ∪ Set.range Instr.scrcEntry) := by
    rw [Set.disjoint_left]
    rintro i hi (⟨imm, rfl⟩ | ⟨imm, rfl⟩)
    · exact (mem_fixedInstrs_iff.mp hi imm).1 rfl
    · exact (mem_fixedInstrs_iff.mp hi imm).2 rfl
  have hfinite (f : Byte → Instr) : (Set.range f).Finite := Set.finite_range f
  rw [hcover, Set.ncard_union_eq hfixed (Finset.finite_toSet _) ((hfinite _).union (hfinite _)),
    Set.ncard_union_eq hbytes (hfinite _) (hfinite _), ncard_range_of_byte remByte_injective,
    ncard_range_of_byte scrcEntry_injective, ncard_fixedInstrs]

theorem ncard_legal_words : { w | ∃ i, decode w = .ok i }.ncard = 521 := by
  simpa using (ncard_words_eq (fun _ => True)).trans ncard_univ_instr

theorem ncard_illegal_words : { w | ∃ e, decode w = .error e }.ncard = 2 ^ 32 - 521 := by
  have hcompl : { w | ∃ e, decode w = .error e } = { w | ∃ i, decode w = .ok i }ᶜ :=
    Set.ext fun w => decode_eq_error_iff
  have hall := Set.ncard_add_ncard_compl { w | ∃ i, decode w = .ok i }
  rw [ncard_legal_words, natCard_bitVec] at hall
  rw [hcompl]
  omega

/-- Settles O5: the words that decode are counted by their commands, and the illegal words are all the others. -/
theorem thereAre521LegalWords : Obligations.ThereAre521LegalWords := by
  have hfixed : { w | ∃ i, decode w = .ok i ∧ ∀ imm, i ≠ .remByte imm ∧ i ≠ .scrcEntry imm }.ncard = 9 := by
    simp only [← mem_fixedInstrs_iff]
    exact (ncard_words_eq (· ∈ fixedInstrs)).trans ncard_fixedInstrs
  exact ⟨hfixed, ncard_words_of_byte remByte_injective, ncard_words_of_byte scrcEntry_injective, ncard_legal_words,
    ncard_illegal_words⟩

end Sys2Proof.Machine

/-! ### The remainder engine over a stream of bytes (40_remainder.md R102, R106, R107) -/

namespace Sys2Proof.Machine

open Sys2Proof.Reference

variable {s : State} {p : Pending} {i : Instr} {bytes D : List Byte}

/-- The engine's value of four bytes cut out of a word is the word's leading window. -/
theorem remEngineBytes_be32 (w : Word) : remEngineBytes (be32 w) = some (remload w) := by
  rw [be32, remEngineBytes, wordOfBytes_extractLsb']
  rfl

/-- Further bytes move the engine's value as the accumulator does. -/
theorem remEngineBytes_append {r : Word} (h : remEngineBytes D = some r) (more : List Byte) :
    remEngineBytes (D ++ more) = some (more.foldl remstep8 r) := by
  match D with
  | b0 :: b1 :: b2 :: b3 :: rest =>
    cases h
    simp only [List.cons_append, remEngineBytes, remEngine, List.foldl_append]
  | [] | [_] | [_, _] | [_, _, _] => cases h

/-- A command that feeds bytes to a running remainder appends them to the engine's input. -/
theorem exec_extends_remEngineBytes (hi : ruleOf i p = remFeedRule bytes) (hp : s.pend = some p)
    (hvalid : s.remValid = true) (hD : remEngineBytes D = some s.remAcc) :
    ∃ t, exec i s = .next t ∧ t.remValid = true ∧ remEngineBytes (D ++ bytes) = some t.remAcc :=
  ⟨_, exec_of_remFeedRule_of_remValid hi hp hvalid, hvalid, remEngineBytes_append hD bytes⟩

/-- Settles O31: REM_LOAD starts the engine's input with the bytes of A, and REM_BYTE and REM_WORD append to it. -/
theorem remainderStreamComputesRemEngine : Obligations.RemainderStreamComputesRemEngine := fun s p _ hp =>
  ⟨⟨_, remLoadTakesTheLeadingWindow s p hp, rfl, remEngineBytes_be32 p.a⟩, fun hvalid hD =>
    ⟨fun _ => exec_extends_remEngineBytes rfl hp hvalid hD, exec_extends_remEngineBytes rfl hp hvalid hD⟩⟩

end Sys2Proof.Machine

namespace Sys2Proof.Reference

open Polynomial Sys2Proof.Machine

/-! #### The closed form -/

/-- GLOW is the residue of x^32 (R9). -/
theorem wordPoly_glow : wordPoly glow = polyrem (X ^ 32) := by
  have hgen : polyrem (X ^ 32 + wordPoly glow) = 0 := by
    simpa [gen, glow] using polyrem_mul_gen 1
  rw [polyrem_add, polyrem_wordPoly] at hgen
  exact (CharTwo.add_eq_zero.mp hgen).symm

theorem polyrem_zero : polyrem 0 = 0 := zero_modByMonic gen

/-- The fold of a leading window that begins with a 1 adds x^32 (R101). -/
theorem wordPoly_remload (w : Word) :
    wordPoly (remload w) = polyrem (wordPoly w + if w.getLsbD 31 then X ^ 32 else 0) := by
  rw [remload, polyrem_add, polyrem_wordPoly]
  split
  · rw [wordPoly_xor, wordPoly_glow]
  · rw [polyrem_zero, add_zero]

theorem wordOfBytes_getLsbD_31 (b0 b1 b2 b3 : Byte) : (wordOfBytes b0 b1 b2 b3).getLsbD 31 = b0.getLsbD 7 := by
  simp only [wordOfBytes, BitVec.getLsbD_append]
  simp

/-- R107: the bytes after the leading window multiply what its fold added by x^8 each. -/
theorem wordPoly_remEngine_bytes (b0 b1 b2 b3 : Byte) (rest : List Byte) :
    wordPoly (remEngine (wordOfBytes b0 b1 b2 b3) rest) =
      polyrem (bytesPoly (b0 :: b1 :: b2 :: b3 :: rest) +
        if b0.getLsbD 7 then X ^ (8 * (rest.length + 4)) else 0) := by
  have hbytes : bytesPoly (b0 :: b1 :: b2 :: b3 :: rest) =
      bytesPoly [b0, b1, b2, b3] * X ^ (8 * rest.length) + bytesPoly rest := bytesPoly_append [b0, b1, b2, b3] rest
  rw [remEngine, wordPoly_foldl_remstep8, wordPoly_remload, polyrem_add, polyrem_mul_left, ← polyrem_add,
    wordOfBytes_getLsbD_31, wordPoly_wordOfBytes, hbytes]
  refine congrArg polyrem ?_
  split <;> ring

/-- A leading window taken without the fold leaves the mathematical remainder. -/
theorem polyrem_bytesPoly_cons (b0 b1 b2 b3 : Byte) (rest : List Byte) :
    polyrem (bytesPoly (b0 :: b1 :: b2 :: b3 :: rest)) = wordPoly (rest.foldl remstep8 (wordOfBytes b0 b1 b2 b3)) := by
  rw [wordPoly_foldl_remstep8, wordPoly_wordOfBytes]
  exact congrArg polyrem (bytesPoly_append [b0, b1, b2, b3] rest)

/-- Settles O32: the closed form of the engine, and the examples' values without the fold. -/
theorem remEngineClosedForm : Obligations.RemEngineClosedForm := by
  refine ⟨fun d ds hlen => ?_, by decide, polyrem_bytesPoly_cons 0x80 0 0 0 [], by decide, ?_⟩
  · match ds, hlen with
    | b1 :: b2 :: b3 :: rest, _ => exact ⟨_, rfl, wordPoly_remEngine_bytes d b1 b2 b3 rest⟩
  · rw [polyrem_bytesPoly_cons]
    exact congrArg wordPoly (by decide)

end Sys2Proof.Reference

/-! ### The laws of the carry-less product (41_clmul.md R122) -/

namespace Sys2Proof.Reference

open Polynomial Sys2Proof.Machine

variable {w : Nat}

theorem wordPoly_one : wordPoly (1 : Word) = 1 := by
  rw [show (1 : Word) = (1 : Byte).setWidth 32 from rfl, wordPoly_setWidth _ (by omega), wordPoly_byte_one]

/-- A shift left that drops no bit multiplies by a power of x. -/
theorem wordPoly_shiftLeft {v : BitVec w} {k : Nat} (h : ∀ j, w ≤ j + k → v.getLsbD j = false) :
    wordPoly (v <<< k) = wordPoly v * X ^ k := by
  ext j
  rw [coeff_wordPoly, BitVec.getLsbD_shiftLeft, coeff_mul_X_pow', coeff_wordPoly]
  by_cases hk : k ≤ j
  · by_cases hj : j < w
    · simp [hk, hj, Nat.not_lt.mpr hk]
    · simp [hj, h (j - k) (by omega)]
  · simp [hk, Nat.not_le.mp hk]

/-- The powers of x below 32 as words. -/
theorem wordPoly_one_shiftLeft {k : Nat} (hk : k < 32) : wordPoly ((1 : Word) <<< k) = X ^ k := by
  rw [wordPoly_shiftLeft, wordPoly_one, one_mul]
  intro j hj
  simp [show j ≠ 0 by omega]

/-- The degree of a word is the place of its highest bit. -/
theorem natDegree_wordPoly {v : BitVec w} (h : v ≠ 0) : (wordPoly v).natDegree = v.toNat.log2 := by
  have hne : v.toNat ≠ 0 := fun h0 => h (BitVec.eq_of_toNat_eq (by simpa using h0))
  refine natDegree_eq_of_le_of_coeff_ne_zero (natDegree_le_iff_coeff_eq_zero.mpr fun k hk => ?_) ?_
  · have hlt : v.toNat < 2 ^ k := Nat.lt_log2_self.trans_le (Nat.pow_le_pow_right (by omega) hk)
    rw [coeff_wordPoly, BitVec.getLsbD, Nat.testBit_lt_two_pow hlt]
    rfl
  · rw [coeff_wordPoly, BitVec.getLsbD, Nat.testBit_log2 hne]
    exact one_ne_zero

/-- A bit as a coefficient, and an XOR of bits as their sum. -/
theorem foldl_xor_eq_sum (f : Nat → Bool) (n : Nat) :
    (if ((List.range n).map f).foldl xor false then 1 else 0 : ZMod 2) =
      ∑ i ∈ Finset.range n, if f i then 1 else 0 := by
  induction n with
  | zero => rfl
  | succ n ih =>
    rw [List.range_succ, List.map_append, List.foldl_append, Finset.sum_range_succ, ← ih, List.map_singleton,
      List.foldl_cons, List.foldl_nil]
    cases ((List.range n).map f).foldl xor false <;> cases f n <;> decide

end Sys2Proof.Reference

namespace Sys2Proof.Machine

open Polynomial Sys2Proof.Reference

variable (a b c : Word)

theorem clmul_comm : clmul a b = clmul b a := wordPoly_injective (by simp only [wordPoly_clmul, mul_comm])

theorem clmul_xor : clmul a (b ^^^ c) = clmul a b ^^^ clmul a c :=
  wordPoly_injective (by simp only [wordPoly_clmul, wordPoly_xor, mul_add])

theorem clmul_zero : clmul a 0 = 0 := wordPoly_injective (by simp only [wordPoly_clmul, wordPoly_zero, mul_zero])

/-- A word widened has room for a shift by less than 32. -/
theorem wordPoly_setWidth_shiftLeft {k : Nat} (hk : k < 32) :
    wordPoly (a.setWidth 64 <<< k) = wordPoly a * X ^ k := by
  rw [wordPoly_shiftLeft, wordPoly_setWidth a (by omega)]
  intro j hj
  rw [BitVec.getLsbD_setWidth, BitVec.getLsbD_of_ge a j (by omega), Bool.and_false]

theorem clmul_one_shiftLeft {k : Nat} (hk : k < 32) : clmul a ((1 : Word) <<< k) = a.setWidth 64 <<< k :=
  wordPoly_injective (by rw [wordPoly_clmul, wordPoly_one_shiftLeft hk, wordPoly_setWidth_shiftLeft a hk])

/-- A shift of 1 among the numbers, taken as a word, is the shift of the word. -/
theorem natCast_one_shiftLeft (k : Nat) : ((1 <<< k : Nat) : Word) = (1 : Word) <<< k :=
  BitVec.eq_of_toNat_eq (by simp)

theorem clmul_one : clmul a 1 = a.setWidth 64 :=
  wordPoly_injective (by rw [wordPoly_clmul, wordPoly_one, mul_one, wordPoly_setWidth a (by omega)])

theorem clmul_toNat_lt : (clmul a b).toNat < 2 ^ 63 :=
  BitVec.toNat_lt_of_msb_false (clmul_getLsbD_63 a b)

/-- Degrees add: the polynomials have no zero divisors. -/
theorem clmul_log2 {a b : Word} (ha : a ≠ 0) (hb : b ≠ 0) :
    (clmul a b).toNat.log2 = a.toNat.log2 + b.toNat.log2 := by
  have hne {w : Nat} {v : BitVec w} (hv : v ≠ 0) : wordPoly v ≠ 0 := fun h =>
    hv (wordPoly_injective (h.trans wordPoly_zero.symm))
  have hab : clmul a b ≠ 0 := fun h =>
    mul_ne_zero (hne ha) (hne hb) (by rw [← wordPoly_clmul, h, wordPoly_zero])
  rw [← natDegree_wordPoly hab, wordPoly_clmul, natDegree_mul (hne ha) (hne hb), natDegree_wordPoly ha,
    natDegree_wordPoly hb]

/-- A bit of the product is the coefficient of the product: the sum over the pairs of bits that meet there. -/
theorem clmul_getLsbD (k : Nat) :
    (clmul a b).getLsbD k =
      ((List.range (k + 1)).map (fun i => a.getLsbD i && b.getLsbD (k - i))).foldl xor false := by
  have hbit {x y : Bool} (h : (if x then 1 else 0 : ZMod 2) = if y then 1 else 0) : x = y := by
    revert h
    cases x <;> cases y <;> decide
  apply hbit
  rw [← coeff_wordPoly, wordPoly_clmul, coeff_mul,
    Finset.Nat.sum_antidiagonal_eq_sum_range_succ (fun i j => (wordPoly a).coeff i * (wordPoly b).coeff j),
    foldl_xor_eq_sum]
  refine Finset.sum_congr rfl fun i _ => ?_
  simp only [coeff_wordPoly]
  cases a.getLsbD i <;> simp

/-- Settles O34: laws of the product of polynomials, read off its words. -/
theorem clmulLaws : Obligations.ClmulLaws :=
  ⟨clmul_comm, clmul_xor, fun a => ⟨clmul_zero a, clmul_one a⟩,
    fun a k hk => natCast_one_shiftLeft k ▸ clmul_one_shiftLeft a hk, clmul_toNat_lt, fun _ _ => clmul_log2,
    clmul_getLsbD⟩

end Sys2Proof.Machine

/-! ### The ring of residues (42_modular.md R131, R133, R136) -/

namespace Sys2Proof.Machine

open Polynomial Sys2Proof.Reference

section
variable (a b c : Word)

theorem modmul_comm : modmul a b = modmul b a := wordPoly_injective (by simp only [wordPoly_modmul, mul_comm])

theorem modmul_assoc : modmul (modmul a b) c = modmul a (modmul b c) :=
  wordPoly_injective (by simp only [wordPoly_modmul, polyrem_mul_left, polyrem_mul_right, mul_assoc])

theorem modmul_xor : modmul a (b ^^^ c) = modmul a b ^^^ modmul a c :=
  wordPoly_injective (by simp only [wordPoly_modmul, wordPoly_xor, mul_add, polyrem_add])

theorem one_modmul : modmul 1 b = b :=
  wordPoly_injective (by rw [wordPoly_modmul, wordPoly_one, one_mul, polyrem_wordPoly])

theorem zero_modmul : modmul 0 b = 0 :=
  wordPoly_injective (by rw [wordPoly_modmul, wordPoly_zero, zero_mul, polyrem_zero])

end

/-- Settles O37: laws of the product of polynomials, which taking the remainder keeps. -/
theorem modmulIsTheRingProduct : Obligations.ModmulIsTheRingProduct :=
  ⟨wordPoly_modmul, clmul_getLsbD_63, modmul_comm, modmul_assoc, modmul_xor, fun b => ⟨one_modmul b, zero_modmul b⟩⟩

section
variable (base : Word) (e f : Nat)

theorem modexp_zero : modexp base 0 = 1 :=
  wordPoly_injective (by rw [wordPoly_modexp, pow_zero, ← wordPoly_one, polyrem_wordPoly])

theorem modexp_one : modexp base 1 = base :=
  wordPoly_injective (by rw [wordPoly_modexp, pow_one, polyrem_wordPoly])

theorem modexp_add : modexp base (e + f) = modmul (modexp base e) (modexp base f) :=
  wordPoly_injective (by simp only [wordPoly_modexp, wordPoly_modmul, polyrem_mul_left, polyrem_mul_right, pow_add])

theorem modexp_mul : modexp base (e * f) = modexp (modexp base e) f :=
  wordPoly_injective (by simp only [wordPoly_modexp, polyrem_pow, pow_mul])

end

/-- Settles O38: powers of polynomials of degree below 32, which are their own remainders. -/
theorem modexpIsTheRingPower : Obligations.ModexpIsTheRingPower := fun base =>
  ⟨degree_wordPoly_lt base, wordPoly_modexp base, modexp_zero base, modexp_one base⟩

/-! #### The order of x -/

/-- The power of a power of x. -/
theorem wordPoly_modexp_one_shiftLeft {k : Nat} (hk : k < 32) (e : Nat) :
    wordPoly (modexp ((1 : Word) <<< k) e) = polyrem (X ^ (k * e)) := by
  rw [wordPoly_modexp, wordPoly_one_shiftLeft hk, pow_mul]

theorem wordPoly_modexp_two (e : Nat) : wordPoly (modexp 0x00000002 e) = polyrem (X ^ e) := by
  simpa using wordPoly_modexp_one_shiftLeft (k := 1) (by omega) e

theorem wordPoly_modexp_x8 (e : Nat) : wordPoly (modexp 0x00000100 e) = polyrem (X ^ (8 * e)) :=
  wordPoly_modexp_one_shiftLeft (k := 8) (by omega) e

/-- The order of x divides 2^32 - 1, found by computation (R136): one power for each factor of 65537 * 65535. -/
theorem modexp_two_order : modexp 0x00000002 0xFFFFFFFF = 0x00000001 := by
  have hfirst : modexp 0x00000002 65537 = 0xE5A85E35 := by decide +kernel
  have hsecond : modexp 0xE5A85E35 65535 = 0x00000001 := by decide +kernel
  rw [show 0xFFFFFFFF = 65537 * 65535 from rfl, modexp_mul, hfirst, hsecond]

theorem polyrem_X_pow_order : polyrem (X ^ (2 ^ 32 - 1)) = 1 := by
  rw [← wordPoly_modexp_two, ← wordPoly_one]
  exact congrArg wordPoly modexp_two_order

/-- The residue of a power of x depends on the exponent up to the order. -/
theorem polyrem_X_pow_mod (e : Nat) : polyrem (X ^ (e % (2 ^ 32 - 1))) = polyrem (X ^ e) := by
  have hsplit : (X : (ZMod 2)[X]) ^ e = (X ^ (2 ^ 32 - 1)) ^ (e / (2 ^ 32 - 1)) * X ^ (e % (2 ^ 32 - 1)) := by
    rw [← pow_mul, ← pow_add, Nat.div_add_mod]
  rw [hsplit, ← polyrem_mul_left, ← polyrem_pow (X ^ (2 ^ 32 - 1)), polyrem_X_pow_order, one_pow, polyrem_mul_left,
    one_mul]

/-- Settles O39: the laws of powers, the words 2 and 0x100 as x and x^8, and the order of x, which divides the last
item's exponent. -/
theorem ringExponentLaws : Obligations.RingExponentLaws := by
  refine ⟨modexp_add, modexp_mul, wordPoly_modexp_x8, wordPoly_modexp_two, modexp_two_order, fun e f h => ?_, ?_⟩
  · rw [← polyrem_X_pow_mod e, h, polyrem_X_pow_mod]
  · apply wordPoly_injective
    have hmod : 8 * (2 ^ 64 - 1) % (2 ^ 32 - 1) = 0 := by norm_num
    rw [wordPoly_modexp_x8, ← polyrem_X_pow_mod, hmod, pow_zero, ← wordPoly_one, polyrem_wordPoly]

end Sys2Proof.Machine

/-! ### The results of a session's buffer (43_sparse_crc.md R153, R162, R165) -/

namespace Sys2Proof.Machine

open Sys2Proof.Reference

variable {m m' : EntryBuffer} {p : Nat} {v : Byte}

/-- Settles O46: the contributions' remainders, and their sum. -/
theorem combinedIsTheRemainderOfTheBuffer : Obligations.CombinedIsTheRemainderOfTheBuffer :=
  ⟨fun _ _ => wordPoly_combined, fun L p v _ => wordPoly_contrib L p v, rfl⟩

/-! #### Disjoint buffers -/

/-- An entry put at a new position is one entry more, wherever it stands. -/
theorem EntryBuffer.put_perm_cons (v : Byte) (h : ∀ e ∈ m, e.1 ≠ p) : (EntryBuffer.put p v m).Perm ((p, v) :: m) := by
  induction m with
  | nil => exact .refl _
  | cons x xs ih =>
    have hx : p ≠ x.1 := (h x List.mem_cons_self).symm
    rw [EntryBuffer.put, if_neg hx]
    split
    · exact .refl _
    · exact ((ih fun e he => h e (List.mem_cons_of_mem x he)).cons x).trans (.swap _ _ xs)

/-- The union of disjoint buffers holds the entries of both. -/
theorem putAll_perm_append (hm' : EntryBuffer.wf m') (h : ∀ e ∈ m, ∀ e' ∈ m', e.1 ≠ e'.1) :
    (putAll m' m).Perm (m ++ m') := by
  induction m' generalizing m with
  | nil => simp [putAll]
  | cons x xs ih =>
    obtain ⟨hx, hxs⟩ := List.pairwise_cons.mp hm'
    have hput : (EntryBuffer.put x.1 x.2 m).Perm (x :: m) :=
      EntryBuffer.put_perm_cons x.2 fun e he => h e he x List.mem_cons_self
    have hdisjoint : ∀ e ∈ EntryBuffer.put x.1 x.2 m, ∀ e' ∈ xs, e.1 ≠ e'.1 := by
      intro e he e' he'
      rcases List.mem_cons.mp (hput.mem_iff.mp he) with rfl | he
      · exact Nat.ne_of_lt (hx e' he')
      · exact h e he e' (List.mem_cons_of_mem x he')
    exact ((ih hxs hdisjoint).trans (hput.append_right xs)).trans List.perm_middle.symm

theorem combined_append (L : Nat) (m m' : EntryBuffer) : combined L (m ++ m') = combined L m ^^^ combined L m' := by
  induction m' using List.reverseRecOn with
  | nil => simp [combined]
  | append_singleton es e ih => rw [← List.append_assoc, combined_concat, ih, combined_concat, BitVec.xor_assoc]

/-- R162: the sum over a disjoint union is the XOR of the sums. -/
theorem combined_putAll (L : Nat) (hm' : EntryBuffer.wf m') (h : ∀ e ∈ m, ∀ e' ∈ m', e.1 ≠ e'.1) :
    combined L (putAll m' m) = combined L m ^^^ combined L m' := by
  rw [← combined_append, combined_perm L (putAll_perm_append hm' h).symm]

/-- Settles O49: each session's result is `combined` of its buffer. -/
theorem sremFinishIsLinear : Obligations.SremFinishIsLinear := by
  refine ⟨fun s p m m' hp hopen _ hm' hdisjoint => ?_, by decide +kernel, by decide +kernel, by decide +kernel⟩
  have hfinish (eb : EntryBuffer) := exec_of_finishRule_of_open (i := .sremFinish) (s := { s with eb := eb })
    (result := combined) rfl hp hopen
  exact ⟨_, _, _, hfinish m, hfinish m', hfinish (putAll m' m), combined_putAll _ hm' hdisjoint⟩

/-! #### Entries with value 0 -/

theorem contrib_byte_zero (L p : Nat) : contrib L p 0 = 0 :=
  wordPoly_injective (by rw [wordPoly_contrib, wordPoly_zero, zero_mul, polyrem_zero, wordPoly_zero])

/-- A byte 0 at a new position leaves the bytes of the buffer. -/
theorem materialize_put_zero (hm : EntryBuffer.wf m) (hnew : EntryBuffer.lookup p m = none) (L : Nat) :
    materialize L (EntryBuffer.put p 0 m) = materialize L m := by
  have hbyte : EntryBuffer.byteAt (EntryBuffer.put p 0 m) = EntryBuffer.byteAt m := by
    funext q
    rw [EntryBuffer.byteAt_put hm]
    split
    case isTrue hq => rw [hq, EntryBuffer.byteAt, hnew]; rfl
    case isFalse => rfl
  rw [materialize_eq_map (EntryBuffer.wf_put hm), materialize_eq_map hm, hbyte]

/-- An entry below a size keeps the buffer below it. -/
theorem EntryBuffer.put_lt {L : Nat} (hm : EntryBuffer.wf m) (hlt : ∀ e ∈ m, e.1 < L) (hp : p < L) :
    ∀ e ∈ EntryBuffer.put p v m, e.1 < L := by
  intro e he
  obtain rfl | ⟨he, -⟩ := (EntryBuffer.mem_put hm).mp he
  · exact hp
  · exact hlt e he

/-- Settles O50: both results are functions of the materialized buffer, which an entry 0 leaves as it was. -/
theorem zeroEntriesCountButDoNotShow : Obligations.ZeroEntriesCountButDoNotShow := by
  refine ⟨fun L p _ => contrib_byte_zero L p, fun L p m hm hlt hp hnew => ?_⟩
  have hwf : EntryBuffer.wf (EntryBuffer.put p 0 m) := EntryBuffer.wf_put hm
  have hput := EntryBuffer.put_lt (v := 0) hm hlt hp
  have hbuffer := materialize_put_zero hm hnew L
  refine ⟨wordPoly_injective ?_, ?_, ?_⟩
  · rw [wordPoly_combined hwf hput, wordPoly_combined hm hlt, hbuffer]
  · rw [crcSparse_eq_crc32Ref hwf hput, crcSparse_eq_crc32Ref hm hlt, hbuffer]
  · rw [EntryBuffer.length_put_eq_ite_lookup hm, if_pos hnew]

end Sys2Proof.Machine

/-! ### The two families of commands (43_sparse_crc.md R163) -/

namespace Sys2Proof.Machine

variable {s t : State} {i : Instr}

/-- A change of the state that leaves PEND, and that errors and the command's rule commute with: the command commutes
with it too. -/
theorem exec_of_commutes {f : State → State} (hpend : (f s).pend = s.pend)
    (hraise : ∀ e, (f s).raiseError e = f (s.raiseError e)) (hretire : ∀ u : State, (f u).retire = f u.retire)
    (hrule : ∀ p, ruleOf i p (f s) = (ruleOf i p s).map f) (h : exec i s = .next t) : exec i (f s) = .next (f t) := by
  rw [exec_eq_complete] at h ⊢
  obtain ⟨p, hp, ⟨u, hr, rfl⟩ | ⟨e, hr, rfl⟩⟩ := State.complete_cases h
  · rw [← hretire]
    exact State.complete_ok (hpend.trans hp) (by rw [hrule, hr]; rfl)
  · rw [← hraise]
    exact State.complete_error (hpend.trans hp) (by rw [hrule, hr]; rfl)

/-- The state with another state of the remainder engine. -/
def State.withRemainder (s : State) (acc : Word) (valid : Bool) : State := { s with remAcc := acc, remValid := valid }

/-- The state with another session. -/
def State.withSession (s : State) (z : DWord) (m : EntryBuffer) (o : Bool) : State :=
  { s with size := z, eb := m, scrcOpen := o }

/-- The rules of the session commands neither read nor write the remainder engine's state. -/
theorem ruleOf_withRemainder (hi : sessionCommand i = true) (p : Pending) (s : State) (acc : Word) (valid : Bool) :
    ruleOf i p (s.withRemainder acc valid) = (ruleOf i p s).map (·.withRemainder acc valid) := by
  cases i with
  | scrcBegin => rfl
  | scrcEntry imm => simp only [ruleOf, scrcEntryRule, apply_ite (Except.map _)]; rfl
  | scrcFinish | sremFinish => simp only [ruleOf, finishRule, apply_ite (Except.map _)]; rfl
  | clrErr | remLoad | remByte | remWord | clMul | modMul | modExp => cases hi

/-- The rules of the other commands neither read nor write the session. -/
theorem ruleOf_withSession (hi : sessionCommand i = false) (p : Pending) (s : State) (z : DWord) (m : EntryBuffer)
    (o : Bool) : ruleOf i p (s.withSession z m o) = (ruleOf i p s).map (·.withSession z m o) := by
  cases i with
  | clrErr | remLoad | clMul | modMul | modExp => rfl
  | remByte | remWord => simp only [ruleOf, remFeedRule, apply_ite (Except.map _)]; rfl
  | scrcBegin | scrcEntry | scrcFinish | sremFinish => cases hi

theorem exec_withRemainder (hi : sessionCommand i = true) (h : exec i s = .next t) (acc : Word) (valid : Bool) :
    exec i (s.withRemainder acc valid) = .next (t.withRemainder acc valid) :=
  exec_of_commutes (f := (·.withRemainder acc valid)) rfl
    (fun e => by simp only [State.raiseError_eq, State.withRemainder]) (fun _ => rfl)
    (fun p => ruleOf_withRemainder hi p s acc valid) h

theorem exec_withSession (hi : sessionCommand i = false) (h : exec i s = .next t) (z : DWord) (m : EntryBuffer)
    (o : Bool) : exec i (s.withSession z m o) = .next (t.withSession z m o) :=
  exec_of_commutes (f := (·.withSession z m o)) rfl
    (fun e => by simp only [State.raiseError_eq, State.withSession]) (fun _ => rfl)
    (fun p => ruleOf_withSession hi p s z m o) h

/-- Settles O58: each family's commands commute with any change of the other's state. Putting there what stands there
already is no change, so they leave it. -/
theorem familiesDoNotDisturbEachOther : Obligations.FamiliesDoNotDisturbEachOther := by
  refine ⟨fun i s t hi h => ?_, fun i s t hi h => ?_⟩
  · have hkept : t = t.withRemainder s.remAcc s.remValid :=
      Host.Outcome.next.inj (h.symm.trans (exec_withRemainder hi h s.remAcc s.remValid))
    exact ⟨hkept ▸ rfl, hkept ▸ rfl, exec_withRemainder hi h⟩
  · have hkept : t = t.withSession s.size s.eb s.scrcOpen :=
      Host.Outcome.next.inj (h.symm.trans (exec_withSession hi h s.size s.eb s.scrcOpen))
    exact ⟨hkept ▸ rfl, hkept ▸ rfl, hkept ▸ rfl, exec_withSession hi h⟩

end Sys2Proof.Machine

/-! ### The addresses outside the window (20_memory.md R50, R59) -/

namespace Sys2Proof.Machine

theorem hostAccess_of_outside {s : State} {addr : Nat} (hr : s.resetPin = false)
    (hout : addr < s.regBase ∨ s.regBase + 0x40 ≤ addr) (k : Reg → State) :
    hostAccess s .w32 addr k = .fault .outsideWindow := by
  have hw : windowOffset s addr = none := if_neg (by omega)
  simp [hostAccess, hr, hw]

/-- Settles O16: a read or a write issued is an access of the port, which has no register there. -/
theorem accessOutsideTheWindowFaults : Obligations.AccessOutsideTheWindowFaults := by
  intro s addr v op ops hout hop h
  obtain ⟨k, hk⟩ := step_eq_hostAccess hop h
  rw [hk]
  exact hostAccess_of_outside (s := issued s ops) h.2.1 hout k

end Sys2Proof.Machine
